-- ==== Sys2Proof/Word.lean ====
section
/-!
DEFINITION. The word. A cell's value, an instruction word and an operand address are mathematical integers, Lean's `Int` itself, of
unbounded magnitude (00_scope.md R9, 92_eei_decisions.md D1): there is no width and nothing wraps. Division and remainder are `Int.fdiv`
and `Int.fmod` everywhere (R12: floor, never truncation). Here stands only the slice of an integer's two's-complement bit string.
-/

namespace Sys2Proof

/-- `bits[hi:lo]` of an integer read as an infinite two's-complement bit string (00_scope.md section 4, R13). -/
def bits (hi lo : Nat) (w : Int) : Int :=
  (w.fdiv (2 ^ lo)).fmod (2 ^ (hi - lo + 1))

end Sys2Proof
end

