-- ==== Sys2Proof/Config.lean ====
section
/-!
DEFINITION. What the host hands the block before a run: the configuration (10_state.md R29), raw and accepted, and the program
image (70_reset_and_hazards.md R143); and the one free value the spec leaves (93_implementation_defined.md U1).
-/

namespace Sys2Proof

/-- The accepted configuration (R29): fixed before reset, read-only to the block. Only `n` affects execution (R10). -/
structure Config where
  /-- `N`, the memory size in cells (R6: at least 2; `Config.valid` says so). -/
  n : Nat
  /-- `DELAY`, seconds between steps (R10, R159): no step reads it. A rational stands for the spec's real number (log 8). -/
  delay : Rat
  /-- `SELECTOR`, the observer's list of addresses (R10, R133): no step reads it. -/
  selector : List Int
  deriving DecidableEq, Repr

/-- What the rules require of every accepted configuration (R6: `N >= 2`; R10 and R125: `DELAY` non-negative). The host's predicates of U4 and
U5 may require more (log 9); no execution rule depends on them. -/
def Config.valid (c : Config) : Bool :=
  decide (2 ≤ c.n) && decide (0 ≤ c.delay)

/-- A configuration as the host supplies it, before it is checked (R125). `none` stands for a value that is not of its kind. -/
structure RawConfig where
  /-- `none`: not an integer. -/
  size : Option Int
  /-- `none`: not a real number. -/
  delay : Option Rat
  /-- `none`: not a list of addresses. -/
  selector : Option (List Int)
  deriving DecidableEq, Repr

/-- One element of an image's data segment: a byte sequence, or something else (R147). The count is what the capacity check's
total takes for an element that is no byte sequence; the spec leaves that number to the image (95_test_vectors.md LD9). -/
inductive DataElement where
  | bytes (bs : List (BitVec 8))
  | other (count : Nat)
  deriving DecidableEq, Repr

/-- A program image (R143). `none` is an absent field. A negative `stack` is outside the format; `load` refuses it (R152). -/
structure Image where
  text  : Option (List Int)
  data  : Option (List DataElement)
  stack : Option Int
  deriving DecidableEq, Repr

/-- FREE VALUE (log 10): what a cell holds after a load that fails its data-element check with the given first bad index, on a block
of the given size. The spec: "any value" for every cell (U1, D13). No body: no proof can see a value of it. -/
opaque Config.cellAfterBadData : Image → Nat → Nat → Nat → Int

end Sys2Proof
end

