-- ==== Sys2Proof/Machine/Literals.lean ====
section
/-!
DEFINITION. The numeric literals of the spec, each named once (92_eei_decisions.md D17: they are unaudited, so an audit that finds other
values changes one definition), and the configuration `State.reset` stands for.
-/

namespace Sys2Proof

/-- The radix of the instruction decode (00_scope.md R7). UNVERIFIED (log 2). -/
def INST_SZ : Int := 128

/-- The modulus of the output code (00_scope.md R8). UNVERIFIED (log 2). -/
def OUT_MOD : Int := 127

/-- The number of cells in the reserved system region (00_scope.md R11): the output register alone. -/
def RESERVED_CELLS : Nat := 1

/-- DESIGN CHOICE (log 1, log 8): the configuration of `State.reset`. The spec leaves `N` a parameter with no default (R6, D21); with
128 cells every value of a `b` or `c` digit names a cell (30_encoding.md R68). `DELAY` and `SELECTOR` have no effect (R10). -/
def defaultConfig : Config := { n := 128, delay := 0, selector := [] }

end Sys2Proof
end

