-- ==== Sys2Proof/Syntax.lean ====
section
/-!
DEFINITION. The instruction set: one instruction (00_scope.md R2, 30_encoding.md R69, the one row of spec/opcode_table.json).
-/

namespace Sys2Proof

/-- `subleq a b c` (40_subleq.md R81): `a` the signed address of minuend and destination, `b` the signed address of the subtrahend,
`c` the branch target. Each is an integer; the range of a decoded digit is `Instr.wellFormed`. -/
inductive Instr where
  | subleq (a b c : Int)
  deriving DecidableEq, Repr

end Sys2Proof
end

