-- ==== Sys2Proof/WellFormed.lean ====
section
/-!
DEFINITION. Which instructions an instruction word can hold (30_encoding.md R62): `b` and `c` are digits, `a` is any integer.
-/

namespace Sys2Proof

/-- A digit of the radix: an integer in `[0, INST_SZ)` (R62). -/
def isDigit (x : Int) : Bool :=
  decide (0 ≤ x) && decide (x < INST_SZ)

/-- `b` and `c` are digits; `a` is unrestricted (R62). -/
def Instr.wellFormed : Instr → Bool
  | .subleq _ b c => isDigit b && isDigit c

end Sys2Proof
end

