-- ==== Sys2Proof/Decode.lean ====
section
/-!
DEFINITION. Decoding and encoding an instruction word (30_encoding.md R61, R64). An instruction is one cell, any integer, and every
integer decodes (R70): the decoder is total and has nothing to reject.
-/

namespace Sys2Proof

/-- R61: the three base-`INST_SZ` digits of a word, most significant first, by floor division twice. -/
def decode (w : Int) : Instr :=
  let q := w.fdiv INST_SZ
  .subleq (q.fdiv INST_SZ) (q.fmod INST_SZ) (w.fmod INST_SZ)

/-- R64: `encode(a, b, c) = (a*INST_SZ + b)*INST_SZ + c`. -/
def encode : Instr → Int
  | .subleq a b c => (a * INST_SZ + b) * INST_SZ + c

/-- The word whose bits are those of `w` up to `nbits` and 0 above, as spec/opcode_table.json numbers bits (R13). -/
def tableWord (nbits w : Nat) : Int :=
  Int.ofNat (w % 2 ^ nbits)

/-- The instruction the decoder reads from the word whose bits are `w`, `nbits` of them given; never `none` (R70). -/
def decodeTableWord (nbits w : Nat) : Option Instr :=
  some (decode (tableWord nbits w))

end Sys2Proof
end

