-- ==== Sys2Proof/Machine/State.lean ====
section
/-!
DEFINITION. The architectural state (10_state.md R32, R34), as plain data, and the reset state (R140).
-/

namespace Sys2Proof.Machine

/-- One listed memory cell: its index and the integer it holds. The cell is the unit of addressing and holds an unbounded integer
(R20, R36, R46), so the value is an integer and not a byte (log 3). -/
abbrev Cell := Nat × Int

/-- Memory as the list of the cells that do not hold the initial fill value, by rising index (log 3). -/
abbrev Memory := List Cell

/-- What an unlisted cell holds: "Memory's initial fill value", zero (R34, R140). -/
def Memory.unlisted : Int := 0

/-- The canonical form from index `lo` up: indices strictly rising, no entry equal to what an unlisted cell reads as. -/
def Memory.wfFrom : Nat → Memory → Bool
  | _, [] => true
  | lo, (i, v) :: rest => decide (lo ≤ i) && decide (v ≠ Memory.unlisted) && Memory.wfFrom (i + 1) rest

/-- The canonical form of memory. -/
def Memory.wf (m : Memory) : Bool := Memory.wfFrom 0 m

/-- Every listed cell is one of the `n` cells of the memory (R20). -/
def Memory.within (n : Nat) (m : Memory) : Bool := m.all fun cell => decide (cell.1 < n)

/-- The error kinds of the source's taxonomy (60_exceptions.md R120, R121): a closed enumeration. -/
inductive FaultKind where
  | segFault
  | formatError
  | capacityError
  | configError
  deriving DecidableEq, Repr

/-- Which of the two causes a FormatError has (R123). -/
inductive FormatReason where
  /-- The text segment is absent or empty (R144). -/
  | noText
  /-- The data element with this index is the first that is no byte sequence (R147). -/
  | badData (j : Nat)
  deriving DecidableEq, Repr

/-- What the fault status records: kind and payload (10_state.md R26, 60_exceptions.md R122 to R124). ConfigError is raised before the
block exists and never appears here (R26). -/
inductive FaultInfo where
  /-- `SegFault(pc, w, a, b)`: the faulting step's pc, the word fetched there, both decoded addresses (R122). -/
  | segFault (pc : Nat) (w a b : Int)
  | formatError (reason : FormatReason)
  /-- `CapacityError(required)`: the required size in words (R124). -/
  | capacityError (required : Nat)
  deriving DecidableEq, Repr

/-- The phase of the block's lifecycle (R30). -/
inductive Phase where
  | reset
  | loaded
  | running
  | halted
  | faulted
  | loadFailed
  deriving DecidableEq, Repr

/-- The machine's whole state (R32), with the configuration of R29 and R30. The in-step latch of R31 lives inside a step. -/
structure State where
  /-- The configuration (R29): no operation of the block writes it. -/
  config : Config
  /-- Memory, the output register `N-1` included (R20, R28). -/
  mem : Memory
  /-- The program counter (R22). -/
  pc : Nat
  /-- The halted flag (R24). -/
  halted : Bool
  /-- The fault status (R26): `none`, or the fault that was raised. -/
  fault : Option FaultInfo
  /-- The output stream, oldest code first (R27). -/
  out : List Nat
  /-- The phase (R30). -/
  phase : Phase
  deriving DecidableEq, Repr

/-- `N`, the number of cells. -/
abbrev State.n (s : State) : Nat := s.config.n

/-- Why a step stops outside the machine's own fault state. The spec's SegFault is NOT one of these: the spec describes its entry
(R126), so it is a next state. -/
inductive Fault where
  /-- Raised by fetch, `MemRead` and `MemWrite` for an address that names no cell (R42: `Resolve` is not defined there). No step
  from a state that meets `State.Inv` raises it (R45, R83). Safe: the model stops. -/
  | noSuchCell (address : Int)
  deriving DecidableEq, Repr

/-- Why an action has no transition. -/
inductive Refusal where
  /-- For exec's arm of an instruction without a meaning; no arm raises it. Safe. -/
  | notModelled (mnemonic : String)
  /-- Raised by `step` where no step is enabled (R109, R153; D23, U6). Safe but for a host outside the spec (log 5). -/
  | stepNotEnabled (phase : Phase)
  /-- Raised by `load` and `fill` outside phase Reset (R153). Safe: the model has no run of such a host. -/
  | loadNotEnabled (phase : Phase)
  /-- Raised by `load` for a negative `stack` (R152, D11, U9). Safe: the model has no run for such an image. -/
  | negativeStack (stack : Int)
  /-- Raised by `fill` for a sequence that does not have exactly `N` elements (R150). Safe. -/
  | fillLength (length : Nat)
  deriving DecidableEq, Repr

/-- The state right after reset of a block with configuration `c` (R34, R140). -/
def State.resetWith (c : Config) : State :=
  { config := c, mem := [], pc := 0, halted := false, fault := none, out := [], phase := .reset }

/-- The machine right after reset, with the configuration of log 1. -/
def State.reset : State := State.resetWith defaultConfig

end Sys2Proof.Machine
end

