-- ==== Sys2Proof/Machine/Ops.lean ====
section
/-!
DEFINITION. The named operations: reading and writing a cell, the updates of the state's fields, fetch, the jump, and raising a fault
(60_exceptions.md R126). There is no return from a fault (R128).
-/

namespace Sys2Proof.Machine

/-- The value of cell `i`: the listed value, or what an unlisted cell reads as. -/
def Memory.read : Memory → Nat → Int
  | [], _ => Memory.unlisted
  | (j, u) :: rest, i => if i = j then u else Memory.read rest i

/-- Set cell `i` to `v`, keeping the canonical form. -/
def Memory.write : Memory → Nat → Int → Memory
  | [], i, v => if v = Memory.unlisted then [] else [(i, v)]
  | (j, u) :: rest, i, v =>
    if i < j then (if v = Memory.unlisted then (j, u) :: rest else (i, v) :: (j, u) :: rest)
    else if i = j then (if v = Memory.unlisted then rest else (i, v) :: rest)
    else (j, u) :: Memory.write rest i v

/-- Write the given values to consecutive cells from `base` up, in order. -/
def Memory.writeFrom (m : Memory) (base : Nat) : List Int → Memory
  | [] => m
  | v :: vs => Memory.writeFrom (Memory.write m base v) (base + 1) vs

def State.setMem (s : State) (m : Memory) : State := { s with mem := m }
def State.setPc (s : State) (pc : Nat) : State := { s with pc := pc }
def State.setHalted (s : State) (h : Bool) : State := { s with halted := h }
def State.setFault (s : State) (f : Option FaultInfo) : State := { s with fault := f }
def State.setOut (s : State) (out : List Nat) : State := { s with out := out }
def State.setPhase (s : State) (p : Phase) : State := { s with phase := p }

/-- Instruction fetch (20_memory.md R45): `mem[pc]`, unresolved. The fault is for a `pc` that names no cell, which R22 rules out. -/
def fetch (s : State) : Except Fault Int :=
  if s.pc < s.n then .ok (s.mem.read s.pc) else .error (.noSuchCell s.pc)

/-- Set the program counter to a target modulo `N` (40_subleq.md R87). -/
def State.jumpTo (s : State) (target : Int) : State :=
  s.setPc (target.fmod s.n).toNat

/-- The code of a fault kind (60_exceptions.md R120). -/
def FaultKind.code : FaultKind → Nat
  | .segFault => 1
  | .formatError => 2
  | .capacityError => 3
  | .configError => 4

/-- The kind of a recorded fault (R26). -/
def FaultInfo.kind : FaultInfo → FaultKind
  | .segFault _ _ _ _ => .segFault
  | .formatError _ => .formatError
  | .capacityError _ => .capacityError

/-- The phase a fault leads to (10_state.md R30): a fault of a step to Faulted, a fault of the loader to LoadFailed. -/
def FaultInfo.entryPhase (f : FaultInfo) : Phase :=
  match f.kind with
  | .segFault => .faulted
  | .formatError | .capacityError | .configError => .loadFailed

/-- TAKING A FAULT (60_exceptions.md R126, 70_reset_and_hazards.md R151): the fault status is set and the phase changes; memory, `pc`,
the halted flag and the output stream keep their values, and nothing is saved anywhere else. -/
def State.raise (s : State) (f : FaultInfo) : State :=
  (s.setFault (some f)).setPhase f.entryPhase

/-- The run is on (10_state.md R30, D23): the first step moves Loaded to Running, a later one finds Running. -/
def State.beginStep (s : State) : State :=
  s.setPhase .running

/-- A new reset of the block (60_exceptions.md R128, 70_reset_and_hazards.md R140): the configuration is kept. -/
def State.newReset (s : State) : State :=
  State.resetWith s.config

end Sys2Proof.Machine
end

