-- ==== Sys2Proof/Machine/Flags.lean ====
section
/-!
DEFINITION. The predicates. The block has no condition codes (10_state.md R25): the branch condition is computed and used within a step,
and the halted flag and the fault status are the only flags.
-/

namespace Sys2Proof.Machine

/-- The branch condition (40_subleq.md R87, R88): the value just written is `<= 0`. -/
def branchTaken (r : Int) : Bool :=
  decide (r ≤ 0)

/-- The halt condition (41_output_and_halt.md R107): `pc = 0` and `mem[0] = 0`. -/
def haltCondition (s : State) : Bool :=
  decide (s.pc = 0) && decide (s.mem.read 0 = 0)

/-- Whether a step is enabled (D23; R109, R153): phase Loaded or Running, not halted, no fault. -/
def State.enabled (s : State) : Bool :=
  (decide (s.phase = .loaded) || decide (s.phase = .running)) && !s.halted && s.fault.isNone

end Sys2Proof.Machine
end

