-- ==== Sys2Proof/Machine/Operands.lean ====
section
/-!
DEFINITION. The one operand form (30_encoding.md R67): a signed address, its range check, its resolution, and the one-cell read and write
through it (20_memory.md R41 to R44).
-/

namespace Sys2Proof.Machine

/-- `-N < x < N`, on the signed value (R42). -/
def inRange (n : Nat) (x : Int) : Bool :=
  decide (-(n : Int) < x) && decide (x < (n : Int))

/-- The effective cell index of a signed address in range (R41). -/
def resolve (n : Nat) (x : Int) : Nat :=
  (if 0 ≤ x then x else x + (n : Int)).toNat

/-- `MemRead(x, 1)` (R43). Outside the range no cell is named (R42). -/
def memRead (s : State) (x : Int) : Except Fault Int :=
  if inRange s.n x then .ok (s.mem.read (resolve s.n x)) else .error (.noSuchCell x)

/-- `MemWrite(x, 1, v)` (R44): the cell holds exactly `v`. Outside the range no cell is named (R42). -/
def memWrite (s : State) (x v : Int) : Except Fault State :=
  if inRange s.n x then .ok (s.setMem (s.mem.write (resolve s.n x) v)) else .error (.noSuchCell x)

end Sys2Proof.Machine
end

