-- ==== Sys2Proof/Machine/Subleq.lean ====
section
/-!
DEFINITION. The meaning of `subleq` (40_subleq.md R81): stages 2 to 6 of a step, after fetch and decode. The output monitor and halt
detection, which end every completed step (R80 stages 7 and 8), are in Machine/Monitor.lean.
-/

namespace Sys2Proof.Machine

/-- The address of the next instruction before the wrap (R87): `c` if the branch is taken, else `pc + 1`. -/
def nextTarget (s : State) (r c : Int) : Int :=
  if branchTaken r then c else (s.pc : Int) + 1

/-- `subleq a b c` (R81). The bounds check comes before any access (R83); both operands are read before the write (R84); the difference is
exact (R85); one cell is written (R86); the jump tests the written value (R87, R88). A failed check takes SegFault (R122, R126). -/
def execSubleq (a b c : Int) (s : State) : Host.Outcome State Fault Refusal :=
  if inRange s.n a && inRange s.n b then
    match memRead s a, memRead s b with
    | .error f, _ => .fault f
    | _, .error f => .fault f
    | .ok aa, .ok bb =>
      let r := aa - bb
      match memWrite s a r with
      | .error f => .fault f
      | .ok t => .next (t.jumpTo (nextTarget t r c))
  else .next (s.raise (.segFault s.pc (s.mem.read s.pc) a b))

end Sys2Proof.Machine
end

