-- ==== Sys2Proof/Machine/Monitor.lean ====
section
/-!
DEFINITION. The two stages that end every completed step: the output monitor (41_output_and_halt.md R100 to R106) and halt detection
(R107, R108).
-/

namespace Sys2Proof.Machine

/-- The cell of the output register: the last one (10_state.md R28). -/
def outputCell (n : Nat) : Nat := n - RESERVED_CELLS

/-- The code for a positive value of the output register (R101): `fmod(v, OUT_MOD)`. -/
def outputCode (v : Int) : Nat :=
  (v.fmod OUT_MOD).toNat

/-- Append a code to the output stream (10_state.md R27). -/
def State.emit (s : State) (k : Nat) : State :=
  s.setOut (s.out ++ [k])

/-- The output monitor (R100 to R102): level-triggered, it never writes memory. -/
def State.monitor (s : State) : State :=
  let v := s.mem.read (outputCell s.n)
  if 0 < v then s.emit (outputCode v) else s

/-- Halt detection (R107): sets the flag, and with it the phase (10_state.md R30); otherwise leaves both as they are. -/
def State.detectHalt (s : State) : State :=
  if haltCondition s then (s.setHalted true).setPhase .halted else s

/-- Stages 7 and 8 (40_subleq.md R80), for a step that raised no fault (R106, R126). -/
def State.endStep (s : State) : State :=
  if s.fault.isSome then s else s.monitor.detectHalt

/-- The end of a step, around what the instruction answered. -/
def finishStep : Host.Outcome State Fault Refusal → Host.Outcome State Fault Refusal
  | .next t => .next t.endStep
  | .fault f => .fault f
  | .refused r => .refused r

/-- The state in which the next step runs the word `w`: the word stands at `pc`, and a step is enabled (log 12). -/
def State.launchWith (s : State) (w : Int) : State :=
  let t := s.setMem (s.mem.write s.pc w)
  if s.enabled then t else ((t.setHalted false).setFault none).setPhase .loaded

end Sys2Proof.Machine
end

