-- ==== Sys2Proof/Machine/Step.lean ====
section
/-!
DEFINITION. One step (40_subleq.md R96): where a step is enabled, fetch, decode, execute, output monitor, halt detection.
-/

namespace Sys2Proof.Machine

/-- The complete step (R96), one atomic transition. Where no step is enabled there is no transition (R109, R153; log 5). -/
def step (s : State) : Host.Outcome State Fault Refusal :=
  if s.enabled then
    match fetch s with
    | .error f => .fault f
    | .ok w => finishStep (exec (decode w) s.beginStep)
  else .refused (.stepNotEnabled s.phase)

/-- `s` with the instruction whose bits are `w` where the next step fetches, and that step enabled: it stands for the host's `fill`
(R150; log 12). -/
def State.withFetchWord (s : State) (nbits w : Nat) : State :=
  s.launchWith (tableWord nbits w)

end Sys2Proof.Machine
end

