-- ==== Sys2Proof/Machine/Loader.lean ====
section
/-!
DEFINITION. The host's actions before a run: configuration (60_exceptions.md R125), power-up (70_reset_and_hazards.md R154), loading a
program image (R143 to R149, R152) and the fill primitive (R150). Each is a function of the host's beside `step` (log 12).
-/

namespace Sys2Proof

/-- A byte as an unsigned value in one cell (R148, D12; log 14). -/
def zext8 (b : BitVec 8) : Int := Int.ofNat b.toNat

/-- What an element adds to the total of data bytes (R145). -/
def DataElement.count : DataElement → Nat
  | .bytes bs => bs.length
  | .other count => count

/-- The bytes of an element; none for one that is no byte sequence, which R147 rejects before they are used. -/
def DataElement.content : DataElement → List (BitVec 8)
  | .bytes bs => bs
  | .other _ => []

/-- The text words; an absent text counts as an empty one (R144, D10). -/
def Image.textWords (img : Image) : List Int := img.text.getD []

/-- The data elements; none where the segment is absent (R143). -/
def Image.elements (img : Image) : List DataElement := img.data.getD []

/-- `D`, the total number of data bytes (R143). -/
def Image.dataCount (img : Image) : Nat := (img.elements.map DataElement.count).sum

/-- `S`, the stack reservation, 0 by default (R143); negative values are kept for `load` to refuse. -/
def Image.stackWords (img : Image) : Int := img.stack.getD 0

/-- `L + 1 + D + S` (R145). -/
def Image.required (img : Image) : Nat :=
  img.textWords.length + RESERVED_CELLS + img.dataCount + img.stackWords.toNat

/-- The index of the first element that is no byte sequence, counting from `j` (R147). -/
def firstBad : List DataElement → Nat → Option Nat
  | [], _ => none
  | .bytes _ :: rest, j => firstBad rest (j + 1)
  | .other _ :: _, j => some j

/-- The cells the data segment's bytes become, concatenated in order (R148). -/
def Image.dataWords (img : Image) : List Int :=
  (img.elements.flatMap DataElement.content).map zext8

end Sys2Proof

namespace Sys2Proof.Machine

/-- Check a configuration (R125): `N` an integer of at least 2, `DELAY` a non-negative number, `SELECTOR` a list of addresses. ConfigError is
raised here and nowhere else. DESIGN CHOICE (log 9): what else makes a delay invalid (93_implementation_defined.md U5) and what makes a
selector list invalid (U4) are the host's predicates, taken as arguments; `delayValid` can only reject more than R125's own limit does. -/
def configure (delayValid : Rat → Bool) (selectorValid : List Int → Bool) (raw : RawConfig) : Except FaultKind Config :=
  match raw.size, raw.delay, raw.selector with
  | some size, some delay, some selector =>
    if decide (2 ≤ size) && (decide (0 ≤ delay) && delayValid delay) && selectorValid selector then
      .ok { n := size.toNat, delay := delay, selector := selector }
    else .error .configError
  | _, _, _ => .error .configError

/-- Configure, then reset (R154 steps 1 and 2): a block with an invalid configuration never reaches reset. What is invalid is said at
`configure`, the host's predicates of U4 and U5 included (log 9). -/
def powerUp (delayValid : Rat → Bool) (selectorValid : List Int → Bool) (raw : RawConfig) : Except FaultKind State :=
  (configure delayValid selectorValid raw).map State.resetWith

/-- Where the data region starts: flush against the output register, whatever the stack reservation (R148, R149). -/
def dataBase (n : Nat) (img : Image) : Nat := n - img.dataCount - RESERVED_CELLS

/-- Memory after the text and the data are placed (R146, R148): no other cell is written. -/
def placeImage (n : Nat) (img : Image) (m : Memory) : Memory :=
  (m.writeFrom 0 img.textWords).writeFrom (dataBase n img) img.dataWords

/-- Memory after a failed data-element check: any value in every cell (R147, D13, U1; log 10). -/
def memoryAfterBadData (n : Nat) (img : Image) (j : Nat) : Memory :=
  Memory.writeFrom [] 0 ((List.range n).map (Config.cellAfterBadData img n j))

/-- The checks and writes of `load` in phase Reset, for an image inside the format, in the order of R152. -/
def loadImage (img : Image) (s : State) : State :=
  if img.textWords = [] then s.raise (.formatError .noText)
  else if s.n < img.required then s.raise (.capacityError img.required)
  else
    match firstBad img.elements 0 with
    | some j => (s.setMem (memoryAfterBadData s.n img j)).raise (.formatError (.badData j))
    | none => (s.setMem (placeImage s.n img s.mem)).setPhase .loaded

/-- `load(image)` (R152): in phase Reset only (R142, R153); an image with a negative `stack` is refused (D11; log 11). -/
def load (img : Image) (s : State) : Host.Outcome State Fault Refusal :=
  if s.phase = .reset then
    if img.stackWords < 0 then .refused (.negativeStack img.stackWords) else .next (loadImage img s)
  else .refused (.loadNotEnabled s.phase)

/-- `fill(values)` (R150): exactly `N` integers, each to its cell, with no check of any value; in phase Reset only (R142, R153). -/
def fill (values : List Int) (s : State) : Host.Outcome State Fault Refusal :=
  if s.phase = .reset then
    if values.length = s.n then .next ((s.setMem (s.mem.writeFrom 0 values)).setPhase .loaded)
    else .refused (.fillLength values.length)
  else .refused (.loadNotEnabled s.phase)

end Sys2Proof.Machine
end

