-- ==== Sys2Proof/Machine/RunLoop.lean ====
section
/-!
DEFINITION. The run loop under fuel (41_output_and_halt.md R112, R113), what the observer is offered (60_exceptions.md R131, R132) and what
the block reports to the host (R139).
-/

namespace Sys2Proof.Machine

/-- What the observer hook is offered: a read-only view of all of memory and of `pc` (R131). -/
structure Observation where
  mem : Memory
  pc : Nat
  deriving DecidableEq, Repr

/-- The view of a state (R131). -/
def observe (s : State) : Observation := { mem := s.mem, pc := s.pc }

/-- The report to the host at the end of a run (R139): the halt, or the fault with its payload; never both. -/
inductive Report where
  | halted
  | fault (f : FaultInfo)
  deriving DecidableEq, Repr

/-- What there is to report in a state (R115, R139): nothing while the run goes on. -/
def State.report (s : State) : Option Report :=
  match s.fault with
  | some f => some (.fault f)
  | none => if s.halted then some .halted else none

/-- The run loop for at most `fuel` steps (R112): it stops where no step is enabled. The block itself has no step budget (R113). -/
def runFor : Nat → State → Host.Outcome State Fault Refusal
  | 0, s => .next s
  | fuel + 1, s =>
    if s.enabled then
      match step s with
      | .next t => runFor fuel t
      | .fault f => .fault f
      | .refused r => .refused r
    else .next s

/-- The views of the per-step observer hook in those steps, oldest first: one before each step (R112, R131). -/
def stepViews : Nat → State → List Observation
  | 0, _ => []
  | fuel + 1, s =>
    if s.enabled then
      match step s with
      | .next t => observe s :: stepViews fuel t
      | .fault _ => [observe s]
      | .refused _ => [observe s]
    else []

/-- All views of a run: that of the initialize-observer hook, then one before each step (R112, R132). -/
def runViews (fuel : Nat) (s : State) : List Observation :=
  observe s :: stepViews fuel s

end Sys2Proof.Machine
end

