-- ==== Sys2Proof/Safety.lean ====
section
/-!
DEFINITION. What claims are stated in: the cell an operand names, the instruction a step fetches, the invariant of the block's states, and
the three ways a run can end (41_output_and_halt.md R114).
-/

namespace Sys2Proof.Machine

/-- The value of the cell a signed operand address names (20_memory.md R41, R43). -/
def State.cell (s : State) (x : Int) : Int := s.mem.read (resolve s.n x)

/-- A step is enabled in `s` (D23), `pc` names a cell (R22), and the word there decodes to `subleq a b c` (40_subleq.md R82). -/
structure Fetched (s : State) (a b c : Int) : Prop where
  enabled : s.enabled = true
  pc : s.pc < s.n
  word : decode (s.mem.read s.pc) = .subleq a b c

/-- The same state of a block whose host set another `DELAY` and `SELECTOR` (00_scope.md R10). -/
def State.withHostParams (s : State) (delay : Rat) (selector : List Int) : State :=
  { s with config := { s.config with delay := delay, selector := selector } }

/-- An outcome with its next state, if it has one, put through `f`. -/
def mapNext (f : State → State) : Host.Outcome State Fault Refusal → Host.Outcome State Fault Refusal
  | .next t => .next (f t)
  | .fault e => .fault e
  | .refused r => .refused r

/-- Memory is in canonical form and every listed cell exists (10_state.md R20). -/
abbrev State.MemOk (s : State) : Prop := s.mem.wf = true ∧ s.mem.within s.n = true

/-- Every code of the output stream is in `[0, OUT_MOD)` (10_state.md R27). -/
abbrev State.CodesOk (s : State) : Prop := ∀ k ∈ s.out, (k : Int) < OUT_MOD

/-- The phase agrees with the halted flag and the fault status (10_state.md R30): Halted exactly when halted; Faulted and LoadFailed
exactly when there is a fault, each for its own kinds. -/
def State.phaseAgrees (s : State) : Bool :=
  match s.fault, s.halted with
  | some f, false => decide (s.phase = f.entryPhase)
  | some _, true => false
  | none, true => decide (s.phase = .halted)
  | none, false => decide (s.phase = .reset) || decide (s.phase = .loaded) || decide (s.phase = .running)

/-- The run has not started: phase Reset, Loaded or LoadFailed (R30). -/
abbrev State.Unstarted (s : State) : Prop := s.phase = .reset ∨ s.phase = .loaded ∨ s.phase = .loadFailed

/-- The invariant of the block's states: a valid configuration (R6), memory of `N` cells (R20), a pc in `[0, N)` (R22), codes in range
(R27), a phase that agrees with the flags (R30), a halted machine stands at `pc = 0` with `mem[0] = 0` (R107), before the run `pc` is 0 and
nothing is emitted (R151), and in phase Reset every cell is 0 (R140). -/
structure State.Inv (s : State) : Prop where
  config : s.config.valid = true
  mem : s.MemOk
  pc : s.pc < s.n
  codes : s.CodesOk
  phase : s.phaseAgrees = true
  halted : s.halted = true → s.pc = 0 ∧ s.mem.read 0 = 0
  unstarted : s.Unstarted → s.pc = 0 ∧ s.out = []
  reset : s.phase = .reset → s.mem = []

/-- The run from `s` ends halted (R114). -/
def HaltsFrom (s : State) : Prop := ∃ fuel t, runFor fuel s = .next t ∧ t.phase = .halted

/-- The run from `s` ends faulted (R114). -/
def FaultsFrom (s : State) : Prop := ∃ fuel t, runFor fuel s = .next t ∧ t.phase = .faulted

/-- The run from `s` is infinite (R114): after any number of steps another is enabled. -/
def DivergesFrom (s : State) : Prop := ∀ fuel, ∃ t, runFor fuel s = .next t ∧ t.enabled = true

end Sys2Proof.Machine
end

