-- ==== Sys2Proof/Certificates/Slice0/Obligations.lean ====
section
/-!
DEFINITION. The statements for the provers, by family: encoding, addresses and memory, the instruction, the step, output and halting, the
run, the host's actions before a run. OBLIGATIONS.json gives each its number, tier and the rules of spec/ it rests on.
-/

open Sys2Proof Sys2Proof.Machine

/-! ### Encoding (30_encoding.md) -/

/-- From R61 and R12 (the inference R62, which the spec marks as its own). The decoded `b` and `c` are in `[0, 127]`, `a` is `fdiv(w, 16384)`, and `a` can be any integer. -/
def Obligations.DecodedFieldRanges : Prop :=
  (∀ w a b c : Int, decode w = .subleq a b c → 0 ≤ b ∧ b ≤ 127 ∧ 0 ≤ c ∧ c ≤ 127 ∧ a = w.fdiv 16384) ∧
  ∀ a : Int, ∃ w b c, decode w = .subleq a b c

/-- From R61 (the inference R63, which the spec marks as its own). A word is `16384*a + 128*b + c` of its own decode; distinct words decode to distinct triples; every triple with digits `b` and `c`
is the decode of exactly one word. -/
def Obligations.DecodeIsABijection : Prop :=
  (∀ w a b c : Int, decode w = .subleq a b c → w = 16384 * a + 128 * b + c) ∧
  (∀ w w' : Int, decode w = decode w' → w = w') ∧
  ∀ a b c : Int, 0 ≤ b → b < 128 → 0 ≤ c → c < 128 → ∃! w, decode w = .subleq a b c

/-- R64. Encode is `(a*INST_SZ + b)*INST_SZ + c`, and decoding gives the instruction back exactly where `b` and `c` are digits, whatever
integer `a` is; elsewhere the word decodes to a different triple. -/
def Obligations.DecodeInvertsEncodeOnDigits : Prop :=
  (∀ a b c : Int, encode (.subleq a b c) = (a * INST_SZ + b) * INST_SZ + c) ∧
  ∀ a b c : Int, decode (encode (.subleq a b c)) = .subleq a b c ↔ (0 ≤ b ∧ b < INST_SZ) ∧ 0 ≤ c ∧ c < INST_SZ

/-- From R61 (the bit view R66, which the spec marks as its own inference). The bit view: `c = w[6:0]`, `b = w[13:7]`, `a` the arithmetic shift right by 14; the sign and size of `a` follow those of `w`. -/
def Obligations.DecodeIsTheBitView : Prop :=
  ∀ w a b c : Int, decode w = .subleq a b c →
    c = bits 6 0 w ∧ b = bits 13 7 w ∧ a = w >>> (14 : Nat) ∧ a = w.fdiv (2 ^ 14) ∧
    (0 ≤ w → w < 2 ^ 21 → 0 ≤ a ∧ a < 128) ∧ (2 ^ 21 ≤ w → 128 ≤ a) ∧ (w < 0 → a < 0)

/-- Words of 95_test_vectors.md, sections 1 and 2.1, with the triples the spec decodes them to (R61, R65). -/
def Obligations.DecodeOfTheSpecsWords : Prop :=
  decode 0 = .subleq 0 0 0 ∧ decode 127 = .subleq 0 0 127 ∧ decode 128 = .subleq 0 1 0 ∧
  decode 16383 = .subleq 0 127 127 ∧ decode 16384 = .subleq 1 0 0 ∧ decode 66305 = .subleq 4 6 1 ∧
  decode 2097152 = .subleq 128 0 0 ∧ decode 1099511627781 = .subleq 67108864 0 5 ∧
  decode (-1) = .subleq (-1) 127 127 ∧ decode (-16385) = .subleq (-2) 127 127 ∧ decode (-114555) = .subleq (-7) 1 5

/-- From R61, R41, R42 and R87 (the inference R68, which the spec marks as its own). What each field reaches, for `N >= 2`: `a` every cell, cells `1..N-1` by two values each and cell 0 by one; `b` only cell `b`, and
the output register only where `N <= 128`; a taken branch every cell exactly where `N <= 128`, else only cells `0..127`. -/
def Obligations.ReachOfEachField : Prop :=
  ∀ n : Nat, 2 ≤ n →
    (∀ k : Nat, 1 ≤ k → k < n → ∀ x : Int, (inRange n x = true ∧ resolve n x = k) ↔ (x = k ∨ x = (k : Int) - n)) ∧
    (∀ x : Int, (inRange n x = true ∧ resolve n x = 0) ↔ x = 0) ∧
    (∀ b : Int, 0 ≤ b → b ≤ 127 → (inRange n b = true ↔ b < n) ∧ (b < n → (resolve n b : Int) = b)) ∧
    ((∃ b : Int, (0 ≤ b ∧ b ≤ 127) ∧ inRange n b = true ∧ resolve n b = n - 1) ↔ n ≤ 128) ∧
    ((∀ k : Nat, k < n → ∃ c : Int, (0 ≤ c ∧ c ≤ 127) ∧ c.fmod n = k) ↔ n ≤ 128) ∧
    (128 < n → ∀ c : Int, 0 ≤ c → c ≤ 127 → c.fmod n = c)

/-! ### Addresses and memory (20_memory.md) -/

/-- R41. `Resolve` is `x` for `0 <= x < N` and `x + N` for `-N < x < 0`; it maps `{-N+1, ..., -1}` onto `{1, ..., N-1}` one to one; no
negative address resolves to cell 0; `-1` resolves to the output register. -/
def Obligations.ResolveOfSignedAddresses : Prop :=
  ∀ n : Nat,
    (∀ x : Int, 0 ≤ x → x < n → (resolve n x : Int) = x) ∧
    (∀ x : Int, -(n : Int) < x → x < 0 → (resolve n x : Int) = x + n ∧ 1 ≤ resolve n x ∧ resolve n x < n) ∧
    (∀ k : Nat, 1 ≤ k → k < n → ∃! x : Int, (-(n : Int) < x ∧ x < 0) ∧ resolve n x = k) ∧
    (2 ≤ n → resolve n (-1) = n - 1)

/-- R42, for the primitives. An address outside `(-N, N)`, `-N` and `N` among them, names no cell: the read and the write through it stop
with the named fault, and only there. The named fault of the primitives is the model's (log 6). -/
def Obligations.OutOfRangeNamesNoCell : Prop :=
  ∀ (s : State) (x v : Int),
    (memRead s x = .error (.noSuchCell x) ↔ x ≤ -(s.n : Int) ∨ (s.n : Int) ≤ x) ∧
    (memWrite s x v = .error (.noSuchCell x) ↔ x ≤ -(s.n : Int) ∨ (s.n : Int) ≤ x)

/-- R43. A read in range answers the value of the cell its address resolves to. With it, `read(-1)` is `read(N-1)` (95_test_vectors.md
L1-7). -/
def Obligations.MemReadAnswersTheCell : Prop :=
  (∀ (s : State) (x : Int), -(s.n : Int) < x → x < s.n → memRead s x = .ok (s.mem.read (resolve s.n x))) ∧
  ∀ s : State, 2 ≤ s.n → memRead s (-1) = memRead s ((s.n : Int) - 1)

/-- R44. A write in range sets the cell its address resolves to, to exactly the value, and changes no other cell and nothing else. -/
def Obligations.MemWriteSetsOneCell : Prop :=
  ∀ (s : State) (x v : Int), s.mem.wf = true → -(s.n : Int) < x → x < s.n →
    ∃ t, memWrite s x v = .ok t ∧ t.mem.read (resolve s.n x) = v ∧
      (∀ i, i ≠ resolve s.n x → t.mem.read i = s.mem.read i) ∧ t = { s with mem := t.mem }

/-- R45. From a state of the block, fetch answers `mem[pc]`, unresolved, and never faults. -/
def Obligations.FetchAnswersTheWordAtPc : Prop :=
  ∀ s : State, s.Inv → fetch s = .ok (s.mem.read s.pc)

/-- The model's canonical form (log 3) does its work: memories in it that hold the same value in every cell are the same data. -/
def Obligations.CanonicalMemoryIsExtensional : Prop :=
  ∀ m m' : Memory, m.wf = true → m'.wf = true → (∀ i, m.read i = m'.read i) → m = m'

/-! ### The instruction (40_subleq.md) -/

/-- R84 to R88. With both addresses in range, `subleq a b c` answers a next state: cell `A` holds `aa - bb` of the values before, every other
cell is as before, `pc` is `c` if the written value is `<= 0` and else `pc + 1`, modulo `N`; every other field is as before. -/
def Obligations.SubleqCompletes : Prop :=
  ∀ (s : State) (a b c : Int), s.mem.wf = true →
    -(s.n : Int) < a → a < s.n → -(s.n : Int) < b → b < s.n →
    ∃ t, exec (.subleq a b c) s = .next t ∧
      t.mem.read (resolve s.n a) = s.mem.read (resolve s.n a) - s.mem.read (resolve s.n b) ∧
      (∀ i, i ≠ resolve s.n a → t.mem.read i = s.mem.read i) ∧
      (t.pc : Int) = (if t.mem.read (resolve s.n a) ≤ 0 then c else (s.pc : Int) + 1).fmod s.n ∧
      t.config = s.config ∧ t.halted = s.halted ∧ t.fault = s.fault ∧ t.out = s.out ∧ t.phase = s.phase

/-- R83 and R126, with the payload of the spec's own decisions D5 and D22. SegFault is a next state (log 4), and the word in its payload is
that of `mem[pc]` (log 17). With an address out of range, `subleq a b c` takes one SegFault that records both addresses: the fault status and the phase
change and nothing else does; `c` is not checked. -/
def Obligations.SubleqTakesSegFault : Prop :=
  ∀ (s : State) (a b c : Int),
    (a ≤ -(s.n : Int) ∨ (s.n : Int) ≤ a ∨ b ≤ -(s.n : Int) ∨ (s.n : Int) ≤ b) →
    exec (.subleq a b c) s =
      .next { s with fault := some (.segFault s.pc (s.mem.read s.pc) a b), phase := .faulted }

/-- The frame of `subleq`. Whatever next state it answers: configuration, halted flag and output stream are unchanged; where both addresses
are in range so are fault status, phase and every cell but `Resolve(a)`; where one is not, so are `pc` and every cell. -/
def Obligations.SubleqFrame : Prop :=
  ∀ (s t : State) (a b c : Int), s.mem.wf = true → exec (.subleq a b c) s = .next t →
    t.config = s.config ∧ t.halted = s.halted ∧ t.out = s.out ∧
    ((inRange s.n a = true ∧ inRange s.n b = true) →
      t.fault = s.fault ∧ t.phase = s.phase ∧ ∀ i, i ≠ resolve s.n a → t.mem.read i = s.mem.read i) ∧
    (¬ (inRange s.n a = true ∧ inRange s.n b = true) → t.pc = s.pc ∧ ∀ i, t.mem.read i = s.mem.read i)

/-- R70, R81. Every instruction answers a next state in every state: nothing stops the machine but its own fault state. -/
def Obligations.EveryInstructionAnswersNext : Prop :=
  ∀ (i : Instr) (s : State), ∃ t, exec i s = .next t

/-- From R84 to R87 (the inference R89, which the spec marks as its own). Operands that name the same cell clear it and always branch to `fmod(c, N)`; `a = b` and `a = b - N` for `b` in
`[1, min(N-1, 127)]` are such operands. -/
def Obligations.SameCellClearsAndBranches : Prop :=
  (∀ (s : State) (a b c : Int), s.mem.wf = true →
    -(s.n : Int) < a → a < s.n → -(s.n : Int) < b → b < s.n → resolve s.n a = resolve s.n b →
    ∃ t, exec (.subleq a b c) s = .next t ∧ t.mem.read (resolve s.n a) = 0 ∧ (t.pc : Int) = c.fmod s.n) ∧
  ∀ (n : Nat) (b : Int), 1 ≤ b → b ≤ (n : Int) - 1 → b ≤ 127 → resolve n (b - n) = resolve n b ∧ inRange n (b - n) = true

/-- R92. Falling through from `N-1` goes to 0, and a branch to `c >= N` goes to `fmod(c, N)`, which is 0 for `c = N`. -/
def Obligations.SequentialAndBranchWrap : Prop :=
  ∀ (s : State) (a b c : Int), s.mem.wf = true →
    -(s.n : Int) < a → a < s.n → -(s.n : Int) < b → b < s.n →
    ∃ t, exec (.subleq a b c) s = .next t ∧
      (s.pc = s.n - 1 → 0 < t.mem.read (resolve s.n a) → t.pc = 0) ∧
      ((s.n : Int) ≤ c → t.mem.read (resolve s.n a) ≤ 0 → (t.pc : Int) = c.fmod s.n ∧ (c = s.n → t.pc = 0))

/-! ### The step (40_subleq.md R96) -/

/-- A step runs the decoded instruction: where a step is enabled and `pc` names a cell, `step` is `exec` of the instruction decoded from
`mem[pc]`, in the state with phase Running (R30, D23), and then the end of the step (output monitor, halt detection) on its answer. -/
def Obligations.StepRunsTheDecodedInstruction : Prop :=
  ∀ s : State, s.enabled = true → s.pc < s.n →
    step s = finishStep (exec (decode (s.mem.read s.pc)) { s with phase := .running })

/-- R96, whole. A step at a word that decodes to `subleq a b c`. In range: the write, the jump, one code where the output register is then
positive, the halted flag exactly where `pc` and cell 0 are then 0. Out of range: `raise SegFault(pc, w, a, b)`, which changes the fault
status and the phase (R126) and nothing else. That clause rests on the spec's own decisions D5 and D22 (the payload; log 17 for its word) and
D6 (nothing is emitted; log 7), and SegFault is a next state (log 4). -/
def Obligations.StepFollowsTheWholeStepRule : Prop :=
  ∀ (s : State) (a b c : Int), s.mem.wf = true → Fetched s a b c →
    ((inRange s.n a = true ∧ inRange s.n b = true) →
      ∃ t, step s = .next t ∧
        t.mem.read (resolve s.n a) = s.mem.read (resolve s.n a) - s.mem.read (resolve s.n b) ∧
        (∀ i, i ≠ resolve s.n a → t.mem.read i = s.mem.read i) ∧
        (t.pc : Int) = (if t.mem.read (resolve s.n a) ≤ 0 then c else (s.pc : Int) + 1).fmod s.n ∧
        t.out = s.out ++ (if 0 < t.mem.read (s.n - 1) then [((t.mem.read (s.n - 1)).fmod OUT_MOD).toNat] else []) ∧
        (t.halted = true ↔ t.pc = 0 ∧ t.mem.read 0 = 0) ∧
        t.fault = none ∧ t.config = s.config) ∧
    (¬ (inRange s.n a = true ∧ inRange s.n b = true) →
      step s = .next { s with fault := some (.segFault s.pc (s.mem.read s.pc) a b), phase := .faulted })

/-- R83 and R122, with the payload of the spec's own decision D5. A step raises SegFault exactly where the decoded `a <= -N`, `a >= N` or `b >= N`, with the payload `(pc, w, a, b)`; `c` is never a
cause. -/
def Obligations.SegFaultExactlyOutOfRange : Prop :=
  ∀ (s : State) (a b c : Int), Fetched s a b c →
    ∃ t, step s = .next t ∧
      t.fault = if a ≤ -(s.n : Int) ∨ (s.n : Int) ≤ a ∨ (s.n : Int) ≤ b
        then some (.segFault s.pc (s.mem.read s.pc) a b) else none

/-- R126 and R127, with the spec's own decisions D5 (the payload), D6 (no output) and D23 (no further step). A step whose addresses fail the check leaves memory, `pc`, halted flag and output stream as they were, sets the fault
status and the phase, reports the fault, and ends the run: no further step and no further observer call. -/
def Obligations.SegFaultIsPreciseAndFinal : Prop :=
  ∀ (s : State) (a b c : Int), Fetched s a b c → ¬ (inRange s.n a = true ∧ inRange s.n b = true) →
    ∃ t, step s = .next t ∧ t.mem = s.mem ∧ t.pc = s.pc ∧ t.out = s.out ∧ t.halted = false ∧ t.config = s.config ∧
      t.fault = some (.segFault s.pc (s.mem.read s.pc) a b) ∧ t.phase = .faulted ∧
      t.report = some (.fault (.segFault s.pc (s.mem.read s.pc) a b)) ∧
      step t = .refused (.stepNotEnabled .faulted) ∧
      ∀ fuel, runFor fuel t = .next t ∧ stepViews fuel t = []

/-- R90. The step completes with the triple decoded at its start even where it writes its own word, and the next fetch of the written
cell sees the new value: after any completed step, fetch answers the written value at that cell and the old value at any other. -/
def Obligations.OldDecodeCompletesNewWordIsFetched : Prop :=
  ∀ (s : State) (a b c : Int), s.mem.wf = true → Fetched s a b c → inRange s.n a = true → inRange s.n b = true →
    ∃ t, step s = .next t ∧
      (t.pc : Int) = (if s.mem.read (resolve s.n a) - s.mem.read (resolve s.n b) ≤ 0 then c else (s.pc : Int) + 1).fmod s.n ∧
      ∀ p, p < s.n → fetch { t with pc := p } =
        .ok (if p = resolve s.n a then s.mem.read (resolve s.n a) - s.mem.read (resolve s.n b) else s.mem.read p)

/-- The spec's own decisions D23 and D9 (R109, R153; log 5). A step is enabled in phase Loaded or Running of a block that is neither halted nor faulted, and where it is not there is
no step: the model answers a refusal that names the phase. -/
def Obligations.NoStepWhereNoneIsEnabled : Prop :=
  ∀ s : State,
    (s.enabled = true ↔ (s.phase = .loaded ∨ s.phase = .running) ∧ s.halted = false ∧ s.fault = none) ∧
    (step s = .refused (.stepNotEnabled s.phase) ↔ s.enabled = false)

/-- R45, R83, R112. From a state of the block, an enabled step always completes: it answers a next state, never a stop of the model. -/
def Obligations.EnabledStepAnswersNext : Prop :=
  ∀ s : State, s.Inv → s.enabled = true → ∃ t, step s = .next t

/-- The phase machine of 10_state.md section 5, the spec's own bookkeeping (R30; D14, D23). The phase after a step: Running where the run goes on, Halted where the flag was set, Faulted where SegFault was raised; and a step
starts only in Loaded or Running. -/
def Obligations.PhaseAfterAStep : Prop :=
  ∀ s t : State, step s = .next t →
    (s.phase = .loaded ∨ s.phase = .running) ∧
    (t.phase = .running ∧ t.halted = false ∧ t.fault = none ∨
     t.phase = .halted ∧ t.halted = true ∧ t.fault = none ∨
     t.phase = .faulted ∧ t.halted = false ∧ ∃ w a b, t.fault = some (.segFault s.pc w a b))

/-- The invariant of the block's states (R6, R20, R22, R27, R30, R107, R140, R151) is kept by every step. -/
def Obligations.StepKeepsTheInvariant : Prop :=
  ∀ s t : State, s.Inv → step s = .next t → t.Inv

/-- The invariant holds after reset, for every valid configuration, and so for `State.reset`, whose configuration is the model's choice
(log 1, log 8). -/
def Obligations.ResetMeetsTheInvariant : Prop :=
  (∀ c : Config, c.valid = true → (State.resetWith c).Inv) ∧ State.reset.Inv

/-! ### Output and halting (41_output_and_halt.md) -/

/-- R101. The monitor appends `fmod(v, OUT_MOD)` where the output register's value `v` is positive and nothing where it is not, and changes
nothing else; a code is in `[0, 126]`. -/
def Obligations.MonitorEmitsOnlyPositiveValues : Prop :=
  ∀ s : State,
    (0 < s.mem.read (s.n - 1) → ∃ k : Nat, (k : Int) = (s.mem.read (s.n - 1)).fmod 127 ∧ k ≤ 126 ∧
      s.monitor = { s with out := s.out ++ [k] }) ∧
    (s.mem.read (s.n - 1) ≤ 0 → s.monitor = s)

/-- R102. If the output register holds the same positive value after each of `k` consecutive completed steps, the same code is emitted `k`
times. -/
def Obligations.PositiveRegisterEmitsEveryStep : Prop :=
  ∀ (k : Nat) (s : State) (v : Int), 0 < v →
    (∀ j, j < k → ∃ u t, runFor j s = .next u ∧ u.enabled = true ∧ step u = .next t ∧
      t.fault = none ∧ t.mem.read (s.n - 1) = v) →
    ∃ t, runFor k s = .next t ∧ t.out = s.out ++ List.replicate k (v.fmod OUT_MOD).toNat

/-- R27. The output stream is append-only along every run: what was emitted stays, at most one code is appended per step, and each is in
`[0, OUT_MOD)`; it is empty after reset. -/
def Obligations.OutputStreamIsAppendOnly : Prop :=
  (∀ (fuel : Nat) (s t : State), runFor fuel s = .next t →
    ∃ codes : List Nat, t.out = s.out ++ codes ∧ codes.length ≤ fuel ∧ ∀ k ∈ codes, (k : Int) < OUT_MOD) ∧
  ∀ c : Config, (State.resetWith c).out = []

/-- R107. After a step the halted flag is set exactly where the step raised no fault, `pc` is 0 and `mem[0]` is 0, all after its write and
jump. -/
def Obligations.HaltedExactlyAtTheCondition : Prop :=
  ∀ s t : State, step s = .next t → (t.halted = true ↔ t.fault = none ∧ t.pc = 0 ∧ t.mem.read 0 = 0)

/-- From R96 and R107 (the inference R158, which the spec marks as its own). `subleq 0 0 c` with `fmod(c, N) = 0` halts in the same step. -/
def Obligations.ClearingCellZeroAndJumpingThereHalts : Prop :=
  ∀ (s : State) (c : Int), s.mem.wf = true → Fetched s 0 0 c → c.fmod s.n = 0 →
    ∃ t, step s = .next t ∧ t.halted = true ∧ t.phase = .halted ∧ t.pc = 0 ∧ t.mem.read 0 = 0

/-- R111, with the inference R110, which the spec marks as its own. The halt condition is not evaluated before a step: from `pc = 0` and `mem[0] = 0` an enabled step runs, halts, leaves memory and
`pc` as they are, and emits where the output register is positive. -/
def Obligations.HaltConditionIsNotTestedFirst : Prop :=
  ∀ s : State, s.mem.wf = true → s.enabled = true → 0 < s.n → s.pc = 0 → s.mem.read 0 = 0 →
    ∃ t, step s = .next t ∧ t.mem = s.mem ∧ t.pc = 0 ∧ t.halted = true ∧ t.phase = .halted ∧
      t.out = s.out ++ (if 0 < s.mem.read (s.n - 1) then [((s.mem.read (s.n - 1)).fmod OUT_MOD).toNat] else [])

/-- R109 and R138, with the spec's own decision D9 (log 5). A halted block takes no further step, however long it is run, and offers nothing more to the observer. -/
def Obligations.HaltedBlockIsFinal : Prop :=
  ∀ s : State, s.halted = true →
    step s = .refused (.stepNotEnabled s.phase) ∧ ∀ fuel, runFor fuel s = .next s ∧ stepViews fuel s = []

/-! ### The run (41_output_and_halt.md R112 to R115, 60_exceptions.md R131, R139) -/

/-- R112. The run loop composes: a run of `j + k` steps is a run of `k` steps from where a run of `j` steps ends. -/
def Obligations.RunLoopComposes : Prop :=
  ∀ (j k : Nat) (s t : State), runFor j s = .next t → runFor (j + k) s = runFor k t

/-- R114. A run from a state of the block where a step is enabled ends in exactly one of three ways; a halted end has `pc = 0`,
`mem[0] = 0` and no fault. -/
def Obligations.RunEndsInExactlyOneWay : Prop :=
  ∀ s : State, s.Inv → s.enabled = true →
    (HaltsFrom s ∧ ¬ FaultsFrom s ∧ ¬ DivergesFrom s ∨
     ¬ HaltsFrom s ∧ FaultsFrom s ∧ ¬ DivergesFrom s ∨
     ¬ HaltsFrom s ∧ ¬ FaultsFrom s ∧ DivergesFrom s) ∧
    ∀ fuel t, runFor fuel s = .next t → t.phase = .halted →
      t.halted = true ∧ t.fault = none ∧ t.pc = 0 ∧ t.mem.read 0 = 0

/-- R10, R159, and R133 with the spec's own decision D19. `DELAY` and `SELECTOR` have no effect on execution: a block with other values of them runs the same run. -/
def Obligations.DelayAndSelectorHaveNoEffect : Prop :=
  ∀ (fuel : Nat) (s : State) (delay : Rat) (selector : List Int),
    runFor fuel (s.withHostParams delay selector) = mapNext (fun t => t.withHostParams delay selector) (runFor fuel s)

/-- R29. No step, load, fill or new reset writes the configuration. -/
def Obligations.ConfigurationIsReadOnly : Prop :=
  ∀ s t : State,
    (step s = .next t → t.config = s.config) ∧
    (∀ img, load img s = .next t → t.config = s.config) ∧
    (∀ values, fill values s = .next t → t.config = s.config) ∧
    s.newReset.config = s.config

/-- R131. The observer is offered memory and `pc` before every step: the view at place `j` is that of the state the `j`-th step starts from,
and there is one view for each step of a run that goes on. -/
def Obligations.ObserverSeesTheStateBeforeEachStep : Prop :=
  ∀ (j fuel : Nat) (s u : State), j < fuel → runFor j s = .next u → u.enabled = true →
    (stepViews fuel s)[j]? = some { mem := u.mem, pc := u.pc }

/-- R139, R115. The block reports the halt in phase Halted, the recorded fault in phases Faulted and LoadFailed, and nothing before; never
both. -/
def Obligations.ReportIsTheHaltOrTheFault : Prop :=
  ∀ s : State, s.Inv →
    (s.report = some .halted ↔ s.phase = .halted) ∧
    (∀ f, s.report = some (.fault f) ↔ s.fault = some f) ∧
    (s.report = none ↔ s.phase = .reset ∨ s.phase = .loaded ∨ s.phase = .running)

/-! ### Configuration, reset, load and fill (60_exceptions.md R125, 70_reset_and_hazards.md) -/

/-- R125, with R6 and R10. A configuration is accepted exactly where `N` is an integer of at least 2, `DELAY` a non-negative number that the
host's `delayValid` accepts and `SELECTOR` a list that the host's `selectorValid` accepts, whatever the two predicates are; any other raises
ConfigError, before a block exists. (The predicates are the host's parameters of U5 and U4, log 9; with `delayValid` always true the delay's
limit is R125's own.) -/
def Obligations.ConfigureAcceptsExactlyTheValid : Prop :=
  ∀ (delayValid : Rat → Bool) (selectorValid : List Int → Bool) (raw : RawConfig),
    (∀ c : Config, configure delayValid selectorValid raw = .ok c ↔
      raw = { size := some (c.n : Int), delay := some c.delay, selector := some c.selector } ∧
        2 ≤ c.n ∧ 0 ≤ c.delay ∧ delayValid c.delay = true ∧ selectorValid c.selector = true) ∧
    (∀ e, configure delayValid selectorValid raw = .error e →
      e = .configError ∧ powerUp delayValid selectorValid raw = .error .configError) ∧
    ∀ c : Config, configure delayValid selectorValid raw = .ok c →
      powerUp delayValid selectorValid raw = .ok (State.resetWith c)

/-- R140, R34. After reset every cell is 0, `pc` is 0, the block is neither halted nor faulted, the output stream is empty and the phase is
Reset; the configuration is kept. -/
def Obligations.ResetState : Prop :=
  ∀ s : State,
    (∀ i, s.newReset.mem.read i = 0) ∧ s.newReset.pc = 0 ∧ s.newReset.halted = false ∧ s.newReset.fault = none ∧
    s.newReset.out = [] ∧ s.newReset.phase = .reset ∧ s.newReset.config = s.config

/-- R146 and R148, with the spec's own decision D12 (unsigned bytes; log 14) and its inference R151. A load that passes its checks: `text[i]` stands at `i`, the concatenated bytes stand as unsigned values at
`N-D-1 .. N-2`, every other cell keeps the 0 of reset, `pc`, flags and output are as before, and the phase is Loaded. -/
def Obligations.LoadPlacesTextAndData : Prop :=
  ∀ (s : State) (img : Image) (text : List Int) (bss : List (List (BitVec 8))) (stack : Nat),
    s.Inv → s.phase = .reset → img.text = some text → img.data.getD [] = bss.map .bytes → img.stack.getD 0 = stack →
    text ≠ [] → text.length + 1 + bss.flatten.length + stack ≤ s.n →
    ∃ t, load img s = .next t ∧
      (∀ i, i < text.length → t.mem.read i = text.getD i 0) ∧
      (∀ k, k < bss.flatten.length →
        t.mem.read (s.n - bss.flatten.length - 1 + k) = (((bss.flatten.getD k 0).toNat : Nat) : Int)) ∧
      (∀ i, text.length ≤ i → i < s.n - bss.flatten.length - 1 → t.mem.read i = 0) ∧
      t.mem.read (s.n - 1) = 0 ∧
      t.pc = 0 ∧ t.halted = false ∧ t.fault = none ∧ t.out = [] ∧ t.phase = .loaded ∧ t.config = s.config

/-- R144, with the spec's own decision D10 (an empty text is as an absent one). An absent or empty text raises FormatError(NoText) before any other check; only fault status and phase change. -/
def Obligations.LoadWithoutTextIsAFormatError : Prop :=
  ∀ (s : State) (img : Image), s.phase = .reset → 0 ≤ img.stack.getD 0 → (img.text = none ∨ img.text = some []) →
    load img s = .next { s with fault := some (.formatError .noText), phase := .loadFailed }

/-- R145, R124. With `L` text words, `D` data bytes and `S` stack words, an image that requires `L + 1 + D + S > N` raises CapacityError with
that size, before any write: only fault status and phase change, by R151, the spec's own inference, and its phase machine D14. One that
requires at most `N` passes the check. What an element that is no byte sequence adds to `D` is the image's (log 10). -/
def Obligations.LoadOverCapacityIsACapacityError : Prop :=
  ∀ (s : State) (img : Image) (text : List Int) (stack required : Nat),
    s.phase = .reset → img.text = some text → text ≠ [] → img.stack.getD 0 = stack →
    required = text.length + 1 + ((img.data.getD []).map DataElement.count).sum + stack →
    (s.n < required →
      load img s = .next { s with fault := some (.capacityError required), phase := .loadFailed }) ∧
    (required ≤ s.n → s.fault = none → ∃ t, load img s = .next t ∧ ∀ k, t.fault ≠ some (.capacityError k))

/-- R147 and R123, with the spec's own decisions D5 and D13. An image inside the capacity with an element that is no byte sequence raises FormatError with the index of the first one;
nothing is said of memory (log 10), and the other fields are unchanged. -/
def Obligations.LoadOfBadDataIsAFormatError : Prop :=
  ∀ (s : State) (img : Image) (bss : List (List (BitVec 8))) (count : Nat) (rest : List DataElement),
    s.phase = .reset → 0 ≤ img.stack.getD 0 → img.text.getD [] ≠ [] →
    img.data = some (bss.map .bytes ++ .other count :: rest) → img.required ≤ s.n →
    ∃ t, load img s = .next t ∧ t.fault = some (.formatError (.badData bss.length)) ∧ t.phase = .loadFailed ∧
      t.pc = s.pc ∧ t.halted = s.halted ∧ t.out = s.out ∧ t.config = s.config

/-- From R145, R146 and R148 (the inference R149, which the spec marks as its own). The stack reservation enters only the capacity check: two images that differ in it alone and both pass the checks load the same
state; and between the text and the data lie at least as many cells as it reserves. -/
def Obligations.StackReservationOnlyEntersTheCapacityCheck : Prop :=
  ∀ (s : State) (img : Image) (bss : List (List (BitVec 8))) (p q : Nat),
    s.phase = .reset → img.text.getD [] ≠ [] → img.data.getD [] = bss.map .bytes →
    (img.text.getD []).length + 1 + bss.flatten.length + p ≤ s.n →
    (img.text.getD []).length + 1 + bss.flatten.length + q ≤ s.n →
    load { img with stack := some (p : Int) } s = load { img with stack := some (q : Int) } s ∧
    (img.text.getD []).length + p ≤ s.n - bss.flatten.length - 1

/-- R150, the spec's own decision D15 for the form of `fill`. `fill` of exactly `N` integers sets every cell to its value and nothing else but the phase; of any other length it is refused. -/
def Obligations.FillWritesEveryCell : Prop :=
  ∀ (s : State) (values : List Int), s.mem.wf = true → s.phase = .reset →
    (values.length = s.n → ∃ t, fill values s = .next t ∧ (∀ i, i < s.n → t.mem.read i = values.getD i 0) ∧
      t = { s with mem := t.mem, phase := .loaded }) ∧
    (values.length ≠ s.n → fill values s = .refused (.fillLength values.length))

/-- R142, with the spec's own decision D23. The reset state is the state after a fill of `N` zeros, but for the phase. -/
def Obligations.FillOfZerosIsTheResetState : Prop :=
  ∀ c : Config, fill (List.replicate c.n 0) (State.resetWith c) = .next { State.resetWith c with phase := .loaded }

/-- R153 and R152, the spec's own decisions D14 and D11 (log 11). A load or fill outside phase Reset is refused, and so is a load of an image with a negative stack. -/
def Obligations.HostActionsRefusedWhereTheyHaveNoMove : Prop :=
  ∀ (s : State) (img : Image) (values : List Int),
    (s.phase ≠ .reset → load img s = .refused (.loadNotEnabled s.phase) ∧ fill values s = .refused (.loadNotEnabled s.phase)) ∧
    (s.phase = .reset → img.stack.getD 0 < 0 → load img s = .refused (.negativeStack (img.stack.getD 0)))

/-- The invariant of the block's states is kept by every load and every fill, the failed ones too. -/
def Obligations.LoadAndFillKeepTheInvariant : Prop :=
  ∀ s t : State, s.Inv →
    (∀ img, load img s = .next t → t.Inv) ∧ ∀ values, fill values s = .next t → t.Inv

/-- The model's own (log 12): `withFetchWord` makes the next step fetch the given word, and changes no other cell, nor `pc`, output or
configuration. -/
def Obligations.WithFetchWordIsFetchedNext : Prop :=
  ∀ (s : State) (nbits w : Nat), s.mem.wf = true → s.pc < s.n →
    (s.withFetchWord nbits w).enabled = true ∧
    fetch (s.withFetchWord nbits w) = .ok ((w % 2 ^ nbits : Nat) : Int) ∧
    (∀ i, i ≠ s.pc → (s.withFetchWord nbits w).mem.read i = s.mem.read i) ∧
    (s.withFetchWord nbits w).pc = s.pc ∧ (s.withFetchWord nbits w).out = s.out ∧
    (s.withFetchWord nbits w).config = s.config
end

