-- ==== Sys2Proof/Laws/Decode.lean ====
section
/-!
SUPPORT. Floor division by a positive number, and what the decoder does with a word.
-/

namespace Sys2Proof

theorem INST_SZ_pos : 0 < INST_SZ := by decide

theorem OUT_MOD_pos : 0 < OUT_MOD := by decide

/-- Floor division by a non-negative number is Lean's `/`. -/
theorem fdiv_eq (x : Int) {m : Int} (hm : 0 ≤ m) : x.fdiv m = x / m := Int.fdiv_eq_ediv_of_nonneg x hm

/-- Floor remainder by a non-negative number is Lean's `%`. -/
theorem fmod_eq (x : Int) {m : Int} (hm : 0 ≤ m) : x.fmod m = x % m := Int.fmod_eq_emod_of_nonneg x hm

theorem fmod_nonneg (x : Int) {m : Int} (hm : 0 < m) : 0 ≤ x.fmod m := Int.fmod_nonneg_of_pos x hm

theorem fmod_lt (x : Int) {m : Int} (hm : 0 < m) : x.fmod m < m := Int.fmod_lt_of_pos x hm

theorem isDigit_iff (x : Int) : isDigit x = true ↔ 0 ≤ x ∧ x < INST_SZ := by simp [isDigit]

/-- A floor remainder by the radix is a digit. -/
theorem isDigit_fmod (x : Int) : isDigit (x.fmod INST_SZ) = true :=
  (isDigit_iff _).2 ⟨fmod_nonneg x INST_SZ_pos, fmod_lt x INST_SZ_pos⟩

theorem wellFormed_subleq (a b c : Int) :
    (Instr.subleq a b c).wellFormed = true ↔ (0 ≤ b ∧ b < INST_SZ) ∧ 0 ≤ c ∧ c < INST_SZ := by
  simp [Instr.wellFormed, isDigit_iff]

theorem encode_eq (a b c : Int) : encode (.subleq a b c) = (a * INST_SZ + b) * INST_SZ + c := rfl

/-- What the decoder answers, in terms of Lean's own division. -/
theorem decode_eq (w : Int) : decode w = .subleq (w / INST_SZ / INST_SZ) (w / INST_SZ % INST_SZ) (w % INST_SZ) := by
  simp only [decode, fdiv_eq _ INST_SZ_pos.le, fmod_eq _ INST_SZ_pos.le]

end Sys2Proof
end

