-- ==== Sys2Proof/Laws/Memory.lean ====
section
/-!
SUPPORT. Memory: read after write, and that every memory operation keeps the canonical form and the size of the memory.
-/

namespace Sys2Proof.Machine

theorem Memory.wfFrom_cons (lo i : Nat) (v : Int) (rest : Memory) :
    Memory.wfFrom lo ((i, v) :: rest) = true ↔ lo ≤ i ∧ v ≠ Memory.unlisted ∧ Memory.wfFrom (i + 1) rest = true := by
  simp [Memory.wfFrom, and_assoc]

theorem Memory.wfFrom_mono {lo lo' : Nat} (h : lo' ≤ lo) {m : Memory} (hm : Memory.wfFrom lo m = true) :
    Memory.wfFrom lo' m = true := by
  cases m with
  | nil => rfl
  | cons c rest =>
    obtain ⟨i, v⟩ := c
    rw [Memory.wfFrom_cons] at hm ⊢
    exact ⟨h.trans hm.1, hm.2⟩

/-- A canonical memory lists nothing below its bound. -/
theorem Memory.read_below {lo i : Nat} {m : Memory} (hm : Memory.wfFrom lo m = true) (hi : i < lo) :
    m.read i = Memory.unlisted := by
  induction m generalizing lo with
  | nil => rfl
  | cons c rest ih =>
    obtain ⟨j, u⟩ := c
    rw [Memory.wfFrom_cons] at hm
    simp only [Memory.read, if_neg (show i ≠ j by omega)]
    exact ih hm.2.2 (by omega)

/-- A write at or above the bound keeps the canonical form. -/
theorem Memory.write_wfFrom {lo i : Nat} {m : Memory} (v : Int) (hm : Memory.wfFrom lo m = true) (hi : lo ≤ i) :
    Memory.wfFrom lo (m.write i v) = true := by
  induction m generalizing lo with
  | nil =>
    by_cases hv : v = Memory.unlisted
    · simp [Memory.write, hv, Memory.wfFrom]
    · simp [Memory.write, hv, Memory.wfFrom, hi]
  | cons c rest ih =>
    obtain ⟨j, u⟩ := c
    obtain ⟨hlo, hu, hrest⟩ := (Memory.wfFrom_cons ..).1 hm
    unfold Memory.write
    split_ifs with h1 hv h2 hv
    · exact hm
    · exact (Memory.wfFrom_cons ..).2 ⟨hi, hv, (Memory.wfFrom_cons ..).2 ⟨h1, hu, hrest⟩⟩
    · exact Memory.wfFrom_mono (by omega) hrest
    · exact (Memory.wfFrom_cons ..).2 ⟨hi, hv, h2 ▸ hrest⟩
    · exact (Memory.wfFrom_cons ..).2 ⟨hlo, hu, ih hrest (by omega)⟩

theorem Memory.write_wf {m : Memory} (i : Nat) (v : Int) (hm : m.wf = true) : (m.write i v).wf = true :=
  Memory.write_wfFrom v hm (Nat.zero_le i)

theorem Memory.read_cons (j : Nat) (u : Int) (rest : Memory) (k : Nat) :
    Memory.read ((j, u) :: rest) k = if k = j then u else Memory.read rest k := rfl

theorem Memory.read_write_of_wfFrom {lo : Nat} {m : Memory} (hm : Memory.wfFrom lo m = true) (i : Nat) (v : Int) (k : Nat) :
    (m.write i v).read k = if k = i then v else m.read k := by
  induction m generalizing lo with
  | nil =>
    by_cases hv : v = Memory.unlisted <;> by_cases hk : k = i <;> simp [Memory.write, Memory.read, hv, hk]
  | cons c rest ih =>
    obtain ⟨j, u⟩ := c
    have hrest := ((Memory.wfFrom_cons ..).1 hm).2.2
    rw [Memory.write]
    by_cases h1 : i < j
    · have h0 : Memory.read ((j, u) :: rest) i = Memory.unlisted :=
        Memory.read_below (lo := j) ((Memory.wfFrom_cons ..).2 ⟨le_rfl, ((Memory.wfFrom_cons ..).1 hm).2⟩) h1
      rw [if_pos h1]
      by_cases hv : v = Memory.unlisted <;> by_cases hk : k = i
      · simp [hv, hk, h0]
      · simp [hv, hk]
      · simp [hv, hk, Memory.read_cons i]
      · simp [hv, hk, Memory.read_cons i]
    · rw [if_neg h1]
      by_cases h2 : i = j
      · subst h2
        have h0 : Memory.read rest i = Memory.unlisted := Memory.read_below hrest (Nat.lt_succ_self i)
        by_cases hv : v = Memory.unlisted <;> by_cases hk : k = i <;> simp [hv, hk, h0, Memory.read_cons]
      · rw [if_neg h2, Memory.read_cons, ih hrest, Memory.read_cons]
        by_cases hk : k = j
        · rw [if_pos hk, if_neg (by omega), if_pos hk]
        · rw [if_neg hk, if_neg hk]

/-- Everything a read sees of a write: the written value at that cell, the old value elsewhere. -/
theorem Memory.read_write {m : Memory} (hm : m.wf = true) (i : Nat) (v : Int) (k : Nat) :
    (m.write i v).read k = if k = i then v else m.read k :=
  Memory.read_write_of_wfFrom hm i v k

theorem Memory.within_cons (n j : Nat) (u : Int) (rest : Memory) :
    Memory.within n ((j, u) :: rest) = true ↔ j < n ∧ Memory.within n rest = true := by
  simp [Memory.within]

theorem Memory.write_within {n i : Nat} {m : Memory} (v : Int) (hm : m.within n = true) (hi : i < n) :
    (m.write i v).within n = true := by
  induction m with
  | nil => by_cases hv : v = Memory.unlisted <;> simp [Memory.write, Memory.within, hv, hi]
  | cons c rest ih =>
    obtain ⟨j, u⟩ := c
    obtain ⟨hj, hr⟩ := (Memory.within_cons ..).1 hm
    unfold Memory.write
    split_ifs
    · exact hm
    · exact (Memory.within_cons ..).2 ⟨hi, hm⟩
    · exact hr
    · exact (Memory.within_cons ..).2 ⟨hi, hr⟩
    · exact (Memory.within_cons ..).2 ⟨hj, ih hr⟩

theorem Memory.writeFrom_wf {m : Memory} (base : Nat) (vs : List Int) (hm : m.wf = true) :
    (m.writeFrom base vs).wf = true := by
  induction vs generalizing m base with
  | nil => exact hm
  | cons v vs ih => exact ih (base + 1) (Memory.write_wf base v hm)

theorem Memory.writeFrom_within {n base : Nat} {m : Memory} {vs : List Int} (hm : m.within n = true)
    (h : base + vs.length ≤ n) : (m.writeFrom base vs).within n = true := by
  induction vs generalizing m base with
  | nil => exact hm
  | cons v vs ih =>
    rw [List.length_cons] at h
    exact ih (Memory.write_within v hm (by omega)) (by omega)

/-- Everything a read sees of a run of writes to consecutive cells. -/
theorem Memory.read_writeFrom {m : Memory} (base : Nat) (vs : List Int) (hm : m.wf = true) (k : Nat) :
    (m.writeFrom base vs).read k = if base ≤ k ∧ k < base + vs.length then vs.getD (k - base) 0 else m.read k := by
  induction vs generalizing m base with
  | nil => simp only [Memory.writeFrom, List.length_nil]; rw [if_neg (by omega)]
  | cons v vs ih =>
    rw [Memory.writeFrom, ih (base + 1) (Memory.write_wf base v hm), Memory.read_write hm, List.length_cons]
    by_cases h0 : k = base
    · subst h0
      rw [if_neg (by omega), if_pos rfl, if_pos (by omega), Nat.sub_self]
      rfl
    · rw [if_neg h0]
      by_cases h1 : base + 1 ≤ k ∧ k < base + 1 + vs.length
      · rw [if_pos h1, if_pos (by omega), show k - base = (k - (base + 1)) + 1 by omega]
        rfl
      · rw [if_neg h1, if_neg (by omega)]

/-- The memory of the reset state is in canonical form and in its size. -/
theorem State.resetWith_mem_wf (c : Config) : (State.resetWith c).mem.wf = true ∧ (State.resetWith c).mem.within c.n = true :=
  ⟨rfl, rfl⟩

/-- A memory of `n` cells lists no cell outside them. -/
theorem Memory.read_outside {n k : Nat} {m : Memory} (hm : m.within n = true) (hk : n ≤ k) : m.read k = Memory.unlisted := by
  induction m with
  | nil => rfl
  | cons c rest ih =>
    obtain ⟨j, u⟩ := c
    obtain ⟨hj, hr⟩ := (Memory.within_cons ..).1 hm
    rw [Memory.read_cons, if_neg (by omega)]
    exact ih hr

end Sys2Proof.Machine
end

