-- ==== Sys2Proof/Laws/State.lean ====
section
/-!
SUPPORT. What each update of the state does to each field, once: the field it sets and the frame of the others.
-/

namespace Sys2Proof.Machine

@[simp] theorem State.setMem_config (s : State) (m : Memory) : (s.setMem m).config = s.config := rfl
@[simp] theorem State.setMem_n (s : State) (m : Memory) : (s.setMem m).n = s.n := rfl
@[simp] theorem State.setMem_mem (s : State) (m : Memory) : (s.setMem m).mem = m := rfl
@[simp] theorem State.setMem_pc (s : State) (m : Memory) : (s.setMem m).pc = s.pc := rfl
@[simp] theorem State.setMem_halted (s : State) (m : Memory) : (s.setMem m).halted = s.halted := rfl
@[simp] theorem State.setMem_fault (s : State) (m : Memory) : (s.setMem m).fault = s.fault := rfl
@[simp] theorem State.setMem_out (s : State) (m : Memory) : (s.setMem m).out = s.out := rfl
@[simp] theorem State.setMem_phase (s : State) (m : Memory) : (s.setMem m).phase = s.phase := rfl

@[simp] theorem State.setPc_config (s : State) (p : Nat) : (s.setPc p).config = s.config := rfl
@[simp] theorem State.setPc_n (s : State) (p : Nat) : (s.setPc p).n = s.n := rfl
@[simp] theorem State.setPc_mem (s : State) (p : Nat) : (s.setPc p).mem = s.mem := rfl
@[simp] theorem State.setPc_pc (s : State) (p : Nat) : (s.setPc p).pc = p := rfl
@[simp] theorem State.setPc_halted (s : State) (p : Nat) : (s.setPc p).halted = s.halted := rfl
@[simp] theorem State.setPc_fault (s : State) (p : Nat) : (s.setPc p).fault = s.fault := rfl
@[simp] theorem State.setPc_out (s : State) (p : Nat) : (s.setPc p).out = s.out := rfl
@[simp] theorem State.setPc_phase (s : State) (p : Nat) : (s.setPc p).phase = s.phase := rfl

@[simp] theorem State.setHalted_config (s : State) (h : Bool) : (s.setHalted h).config = s.config := rfl
@[simp] theorem State.setHalted_n (s : State) (h : Bool) : (s.setHalted h).n = s.n := rfl
@[simp] theorem State.setHalted_mem (s : State) (h : Bool) : (s.setHalted h).mem = s.mem := rfl
@[simp] theorem State.setHalted_pc (s : State) (h : Bool) : (s.setHalted h).pc = s.pc := rfl
@[simp] theorem State.setHalted_halted (s : State) (h : Bool) : (s.setHalted h).halted = h := rfl
@[simp] theorem State.setHalted_fault (s : State) (h : Bool) : (s.setHalted h).fault = s.fault := rfl
@[simp] theorem State.setHalted_out (s : State) (h : Bool) : (s.setHalted h).out = s.out := rfl
@[simp] theorem State.setHalted_phase (s : State) (h : Bool) : (s.setHalted h).phase = s.phase := rfl

@[simp] theorem State.setFault_config (s : State) (f : Option FaultInfo) : (s.setFault f).config = s.config := rfl
@[simp] theorem State.setFault_n (s : State) (f : Option FaultInfo) : (s.setFault f).n = s.n := rfl
@[simp] theorem State.setFault_mem (s : State) (f : Option FaultInfo) : (s.setFault f).mem = s.mem := rfl
@[simp] theorem State.setFault_pc (s : State) (f : Option FaultInfo) : (s.setFault f).pc = s.pc := rfl
@[simp] theorem State.setFault_halted (s : State) (f : Option FaultInfo) : (s.setFault f).halted = s.halted := rfl
@[simp] theorem State.setFault_fault (s : State) (f : Option FaultInfo) : (s.setFault f).fault = f := rfl
@[simp] theorem State.setFault_out (s : State) (f : Option FaultInfo) : (s.setFault f).out = s.out := rfl
@[simp] theorem State.setFault_phase (s : State) (f : Option FaultInfo) : (s.setFault f).phase = s.phase := rfl

@[simp] theorem State.setOut_config (s : State) (o : List Nat) : (s.setOut o).config = s.config := rfl
@[simp] theorem State.setOut_n (s : State) (o : List Nat) : (s.setOut o).n = s.n := rfl
@[simp] theorem State.setOut_mem (s : State) (o : List Nat) : (s.setOut o).mem = s.mem := rfl
@[simp] theorem State.setOut_pc (s : State) (o : List Nat) : (s.setOut o).pc = s.pc := rfl
@[simp] theorem State.setOut_halted (s : State) (o : List Nat) : (s.setOut o).halted = s.halted := rfl
@[simp] theorem State.setOut_fault (s : State) (o : List Nat) : (s.setOut o).fault = s.fault := rfl
@[simp] theorem State.setOut_out (s : State) (o : List Nat) : (s.setOut o).out = o := rfl
@[simp] theorem State.setOut_phase (s : State) (o : List Nat) : (s.setOut o).phase = s.phase := rfl

@[simp] theorem State.setPhase_config (s : State) (p : Phase) : (s.setPhase p).config = s.config := rfl
@[simp] theorem State.setPhase_n (s : State) (p : Phase) : (s.setPhase p).n = s.n := rfl
@[simp] theorem State.setPhase_mem (s : State) (p : Phase) : (s.setPhase p).mem = s.mem := rfl
@[simp] theorem State.setPhase_pc (s : State) (p : Phase) : (s.setPhase p).pc = s.pc := rfl
@[simp] theorem State.setPhase_halted (s : State) (p : Phase) : (s.setPhase p).halted = s.halted := rfl
@[simp] theorem State.setPhase_fault (s : State) (p : Phase) : (s.setPhase p).fault = s.fault := rfl
@[simp] theorem State.setPhase_out (s : State) (p : Phase) : (s.setPhase p).out = s.out := rfl
@[simp] theorem State.setPhase_phase (s : State) (p : Phase) : (s.setPhase p).phase = p := rfl

@[simp] theorem State.raise_config (s : State) (f : FaultInfo) : (s.raise f).config = s.config := rfl
@[simp] theorem State.raise_n (s : State) (f : FaultInfo) : (s.raise f).n = s.n := rfl
@[simp] theorem State.raise_mem (s : State) (f : FaultInfo) : (s.raise f).mem = s.mem := rfl
@[simp] theorem State.raise_pc (s : State) (f : FaultInfo) : (s.raise f).pc = s.pc := rfl
@[simp] theorem State.raise_halted (s : State) (f : FaultInfo) : (s.raise f).halted = s.halted := rfl
@[simp] theorem State.raise_fault (s : State) (f : FaultInfo) : (s.raise f).fault = some f := rfl
@[simp] theorem State.raise_out (s : State) (f : FaultInfo) : (s.raise f).out = s.out := rfl
@[simp] theorem State.raise_phase (s : State) (f : FaultInfo) : (s.raise f).phase = f.entryPhase := rfl

@[simp] theorem State.beginStep_config (s : State) : (s.beginStep).config = s.config := rfl
@[simp] theorem State.beginStep_n (s : State) : (s.beginStep).n = s.n := rfl
@[simp] theorem State.beginStep_mem (s : State) : (s.beginStep).mem = s.mem := rfl
@[simp] theorem State.beginStep_pc (s : State) : (s.beginStep).pc = s.pc := rfl
@[simp] theorem State.beginStep_halted (s : State) : (s.beginStep).halted = s.halted := rfl
@[simp] theorem State.beginStep_fault (s : State) : (s.beginStep).fault = s.fault := rfl
@[simp] theorem State.beginStep_out (s : State) : (s.beginStep).out = s.out := rfl
@[simp] theorem State.beginStep_phase (s : State) : (s.beginStep).phase = .running := rfl

@[simp] theorem State.jumpTo_config (s : State) (x : Int) : (s.jumpTo x).config = s.config := rfl
@[simp] theorem State.jumpTo_n (s : State) (x : Int) : (s.jumpTo x).n = s.n := rfl
@[simp] theorem State.jumpTo_mem (s : State) (x : Int) : (s.jumpTo x).mem = s.mem := rfl
@[simp] theorem State.jumpTo_pc (s : State) (x : Int) : (s.jumpTo x).pc = (x.fmod s.n).toNat := rfl
@[simp] theorem State.jumpTo_halted (s : State) (x : Int) : (s.jumpTo x).halted = s.halted := rfl
@[simp] theorem State.jumpTo_fault (s : State) (x : Int) : (s.jumpTo x).fault = s.fault := rfl
@[simp] theorem State.jumpTo_out (s : State) (x : Int) : (s.jumpTo x).out = s.out := rfl
@[simp] theorem State.jumpTo_phase (s : State) (x : Int) : (s.jumpTo x).phase = s.phase := rfl

@[simp] theorem State.emit_config (s : State) (k : Nat) : (s.emit k).config = s.config := rfl
@[simp] theorem State.emit_n (s : State) (k : Nat) : (s.emit k).n = s.n := rfl
@[simp] theorem State.emit_mem (s : State) (k : Nat) : (s.emit k).mem = s.mem := rfl
@[simp] theorem State.emit_pc (s : State) (k : Nat) : (s.emit k).pc = s.pc := rfl
@[simp] theorem State.emit_halted (s : State) (k : Nat) : (s.emit k).halted = s.halted := rfl
@[simp] theorem State.emit_fault (s : State) (k : Nat) : (s.emit k).fault = s.fault := rfl
@[simp] theorem State.emit_out (s : State) (k : Nat) : (s.emit k).out = s.out ++ [k] := rfl
@[simp] theorem State.emit_phase (s : State) (k : Nat) : (s.emit k).phase = s.phase := rfl

@[simp] theorem FaultInfo.entryPhase_segFault (p : Nat) (w a b : Int) :
    (FaultInfo.segFault p w a b).entryPhase = .faulted := rfl
@[simp] theorem FaultInfo.entryPhase_formatError (r : FormatReason) : (FaultInfo.formatError r).entryPhase = .loadFailed := rfl
@[simp] theorem FaultInfo.entryPhase_capacityError (k : Nat) : (FaultInfo.capacityError k).entryPhase = .loadFailed := rfl

/-- Raising a fault is exactly this: everything the entry of R126 changes. -/
theorem State.raise_eq (s : State) (f : FaultInfo) : s.raise f = { s with fault := some f, phase := f.entryPhase } := rfl

/-- When a step is enabled (D23). -/
theorem State.enabled_iff (s : State) :
    s.enabled = true ↔ (s.phase = .loaded ∨ s.phase = .running) ∧ s.halted = false ∧ s.fault = none := by
  simp [State.enabled, and_assoc]

end Sys2Proof.Machine
end

