-- ==== Sys2Proof/Laws/Operands.lean ====
section
/-!
SUPPORT. The operand form and fetch: everything each of them can answer.
-/

namespace Sys2Proof.Machine

theorem inRange_iff (n : Nat) (x : Int) : inRange n x = true ↔ -(n : Int) < x ∧ x < n := by simp [inRange]

theorem not_inRange_iff (n : Nat) (x : Int) : inRange n x = false ↔ x ≤ -(n : Int) ∨ (n : Int) ≤ x := by
  rw [← Bool.not_eq_true, inRange_iff]; omega

theorem resolve_of_nonneg (n : Nat) {x : Int} (h : 0 ≤ x) : (resolve n x : Int) = x := by
  rw [resolve, if_pos h, Int.toNat_of_nonneg h]

theorem resolve_of_neg {n : Nat} {x : Int} (h : x < 0) (hx : -(n : Int) < x) : (resolve n x : Int) = x + n := by
  rw [resolve, if_neg (by omega), Int.toNat_of_nonneg (by omega)]

theorem resolve_lt {n : Nat} {x : Int} (h : inRange n x = true) : resolve n x < n := by
  rw [inRange_iff] at h
  by_cases hx : 0 ≤ x
  · have := resolve_of_nonneg n hx; omega
  · have := resolve_of_neg (by omega : x < 0) h.1; omega

/-- `MemRead` answers the cell's value in range and faults by name outside. -/
theorem memRead_cases (s : State) (x : Int) :
    inRange s.n x = true ∧ memRead s x = .ok (s.mem.read (resolve s.n x)) ∨
    inRange s.n x = false ∧ memRead s x = .error (.noSuchCell x) := by
  cases h : inRange s.n x <;> simp [memRead, h]

/-- `MemWrite` answers the state with the one cell written in range and faults by name outside. -/
theorem memWrite_cases (s : State) (x v : Int) :
    inRange s.n x = true ∧ memWrite s x v = .ok (s.setMem (s.mem.write (resolve s.n x) v)) ∨
    inRange s.n x = false ∧ memWrite s x v = .error (.noSuchCell x) := by
  cases h : inRange s.n x <;> simp [memWrite, h]

/-- Fetch answers the word at `pc` where `pc` names a cell. -/
theorem fetch_of_lt {s : State} (h : s.pc < s.n) : fetch s = .ok (s.mem.read s.pc) := if_pos h

theorem fetch_of_not_lt {s : State} (h : ¬ s.pc < s.n) : fetch s = .error (.noSuchCell s.pc) := if_neg h

/-- A jump lands on the target modulo `N`, for a memory of at least one cell. -/
theorem jumpTo_pc_eq (s : State) (x : Int) (h : 0 < s.n) : ((s.jumpTo x).pc : Int) = x.fmod s.n := by
  rw [State.jumpTo_pc, Int.toNat_of_nonneg (fmod_nonneg x (by omega))]

theorem jumpTo_pc_lt (s : State) (x : Int) (h : 0 < s.n) : (s.jumpTo x).pc < s.n := by
  have h1 := jumpTo_pc_eq s x h
  have h2 := fmod_lt x (show (0 : Int) < s.n by omega)
  omega

end Sys2Proof.Machine
end

