-- ==== Sys2Proof/Laws/Subleq.lean ====
section
/-!
SUPPORT. The meaning of `subleq`: its two answers, as updates of the state.
-/

namespace Sys2Proof.Machine

/-- The difference the instruction computes (R84, R85). -/
def difference (s : State) (a b : Int) : Int := s.mem.read (resolve s.n a) - s.mem.read (resolve s.n b)

/-- The state after the write and the jump (R86, R87). -/
def afterSubleq (s : State) (a b c : Int) : State :=
  (s.setMem (s.mem.write (resolve s.n a) (difference s a b))).jumpTo (if difference s a b ≤ 0 then c else (s.pc : Int) + 1)

theorem nextTarget_eq (s : State) (r c : Int) : nextTarget s r c = if r ≤ 0 then c else (s.pc : Int) + 1 := by
  simp [nextTarget, branchTaken]

theorem execSubleq_of_inRange {s : State} {a b : Int} (c : Int) (ha : inRange s.n a = true) (hb : inRange s.n b = true) :
    execSubleq a b c s = .next (afterSubleq s a b c) := by
  simp [execSubleq, ha, hb, memRead, memWrite, nextTarget_eq, afterSubleq, difference]

theorem execSubleq_of_not_inRange {s : State} {a b : Int} (c : Int) (h : ¬ (inRange s.n a = true ∧ inRange s.n b = true)) :
    execSubleq a b c s = .next (s.raise (.segFault s.pc (s.mem.read s.pc) a b)) := by
  simp only [execSubleq, Bool.and_eq_true, if_neg h]

/-- Everything `subleq` can answer: its effect where both addresses are in range, SegFault elsewhere. -/
theorem execSubleq_cases (a b c : Int) (s : State) :
    (inRange s.n a = true ∧ inRange s.n b = true) ∧ execSubleq a b c s = .next (afterSubleq s a b c) ∨
    ¬ (inRange s.n a = true ∧ inRange s.n b = true) ∧
      execSubleq a b c s = .next (s.raise (.segFault s.pc (s.mem.read s.pc) a b)) := by
  by_cases h : inRange s.n a = true ∧ inRange s.n b = true
  · exact .inl ⟨h, execSubleq_of_inRange c h.1 h.2⟩
  · exact .inr ⟨h, execSubleq_of_not_inRange c h⟩

@[simp] theorem afterSubleq_config (s : State) (a b c : Int) : (afterSubleq s a b c).config = s.config := rfl
@[simp] theorem afterSubleq_n (s : State) (a b c : Int) : (afterSubleq s a b c).n = s.n := rfl
@[simp] theorem afterSubleq_halted (s : State) (a b c : Int) : (afterSubleq s a b c).halted = s.halted := rfl
@[simp] theorem afterSubleq_fault (s : State) (a b c : Int) : (afterSubleq s a b c).fault = s.fault := rfl
@[simp] theorem afterSubleq_out (s : State) (a b c : Int) : (afterSubleq s a b c).out = s.out := rfl
@[simp] theorem afterSubleq_phase (s : State) (a b c : Int) : (afterSubleq s a b c).phase = s.phase := rfl
@[simp] theorem afterSubleq_mem (s : State) (a b c : Int) :
    (afterSubleq s a b c).mem = s.mem.write (resolve s.n a) (difference s a b) := rfl

theorem afterSubleq_pc {s : State} {a : Int} (b c : Int) (ha : inRange s.n a = true) :
    ((afterSubleq s a b c).pc : Int) = (if difference s a b ≤ 0 then c else (s.pc : Int) + 1).fmod s.n :=
  jumpTo_pc_eq _ _ (by have := resolve_lt ha; simp only [State.n, State.setMem_config] at *; omega)

end Sys2Proof.Machine
end

