-- ==== Sys2Proof/Laws/Step.lean ====
section
/-!
SUPPORT. The end of a step, the whole step and the run loop: everything each of them can answer.
-/

namespace Sys2Proof.Machine

@[simp] theorem outputCell_eq (n : Nat) : outputCell n = n - 1 := rfl

theorem outputCode_eq (v : Int) : (outputCode v : Int) = v.fmod OUT_MOD :=
  Int.toNat_of_nonneg (fmod_nonneg v OUT_MOD_pos)

theorem haltCondition_iff (s : State) : haltCondition s = true ↔ s.pc = 0 ∧ s.mem.read 0 = 0 := by simp [haltCondition]

/-- The codes the output monitor appends in a state: one or none (R101). -/
def emitted (s : State) : List Nat :=
  if 0 < s.mem.read (s.n - 1) then [outputCode (s.mem.read (s.n - 1))] else []

/-- The monitor appends and changes nothing else. -/
theorem monitor_eq (s : State) : s.monitor = s.setOut (s.out ++ emitted s) := by
  by_cases h : 0 < s.mem.read (s.n - 1) <;> simp [State.monitor, State.emit, emitted, h, State.setOut]

/-- Halt detection sets flag and phase together, or nothing. -/
theorem detectHalt_cases (s : State) :
    (s.pc = 0 ∧ s.mem.read 0 = 0) ∧ s.detectHalt = (s.setHalted true).setPhase .halted ∨
    ¬ (s.pc = 0 ∧ s.mem.read 0 = 0) ∧ s.detectHalt = s := by
  by_cases h : s.pc = 0 ∧ s.mem.read 0 = 0
  · exact .inl ⟨h, if_pos ((haltCondition_iff s).2 h)⟩
  · exact .inr ⟨h, if_neg (mt (haltCondition_iff s).1 h)⟩

/-- The end of a step that raised a fault changes nothing (R106, R126). -/
theorem endStep_of_fault {s : State} {f : FaultInfo} (h : s.fault = some f) : s.endStep = s := by
  simp [State.endStep, h]

/-- The end of a completed step: it appends the emitted code, then halts or not. -/
theorem endStep_cases {s : State} (h : s.fault = none) :
    (s.pc = 0 ∧ s.mem.read 0 = 0) ∧ s.endStep = ((s.setOut (s.out ++ emitted s)).setHalted true).setPhase .halted ∨
    ¬ (s.pc = 0 ∧ s.mem.read 0 = 0) ∧ s.endStep = s.setOut (s.out ++ emitted s) := by
  have := detectHalt_cases (s.setOut (s.out ++ emitted s))
  simpa [State.endStep, h, monitor_eq] using this

theorem exec_subleq (a b c : Int) (s : State) : exec (.subleq a b c) s = execSubleq a b c s := rfl

theorem step_of_not_enabled {s : State} (h : s.enabled = false) : step s = .refused (.stepNotEnabled s.phase) := by
  simp [step, h]

/-- A step at a fetched word runs its instruction in a running block and ends the step. -/
theorem step_of_fetched {s : State} {a b c : Int} (h : Fetched s a b c) :
    step s = finishStep (execSubleq a b c s.beginStep) := by
  simp [step, h.enabled, fetch_of_lt h.pc, h.word, exec_subleq]

/-- Everything a step can answer (R96): a refusal where none is enabled, the named fault where `pc` names no cell, SegFault, or the whole
effect with the end of the step. -/
theorem step_cases (s : State) :
    s.enabled = false ∧ step s = .refused (.stepNotEnabled s.phase) ∨
    s.enabled = true ∧ ¬ s.pc < s.n ∧ step s = .fault (.noSuchCell s.pc) ∨
    ∃ a b c, Fetched s a b c ∧
      (¬ (inRange s.n a = true ∧ inRange s.n b = true) ∧
          step s = .next (s.raise (.segFault s.pc (s.mem.read s.pc) a b)) ∨
        (inRange s.n a = true ∧ inRange s.n b = true) ∧ step s = .next (afterSubleq s.beginStep a b c).endStep) := by
  cases he : s.enabled with
  | false => exact .inl ⟨rfl, step_of_not_enabled he⟩
  | true =>
    refine .inr ?_
    by_cases hp : s.pc < s.n
    · obtain ⟨a, b, c⟩ : Instr := decode (s.mem.read s.pc)
      cases hw : decode (s.mem.read s.pc) with
      | subleq a b c =>
        have hf : Fetched s a b c := ⟨he, hp, hw⟩
        refine .inr ⟨a, b, c, hf, ?_⟩
        rw [step_of_fetched hf]
        rcases execSubleq_cases a b c s.beginStep with ⟨hr, hx⟩ | ⟨hr, hx⟩
        · exact .inr ⟨hr, by rw [hx]; rfl⟩
        · refine .inl ⟨hr, ?_⟩
          rw [hx]
          simp only [finishStep]
          rw [endStep_of_fault (State.raise_fault _ _)]
          rfl
    · exact .inl ⟨rfl, hp, by simp [step, he, fetch_of_not_lt hp]⟩

theorem runFor_of_not_enabled (fuel : Nat) {s : State} (h : s.enabled = false) : runFor fuel s = .next s := by
  cases fuel <;> simp [runFor, h]

theorem runFor_succ {fuel : Nat} {s t : State} (h : s.enabled = true) (hs : step s = .next t) :
    runFor (fuel + 1) s = runFor fuel t := by
  simp [runFor, h, hs]

end Sys2Proof.Machine
end

