-- ==== Sys2Proof/Laws/Loader.lean ====
section
/-!
SUPPORT. The host's actions: what `configure` accepts and raises, everything `load` and `fill` can answer, and that they keep memory canonical
and in its size.
-/

namespace Sys2Proof

theorem firstBad_map_bytes (bss : List (List (BitVec 8))) (j : Nat) : firstBad (bss.map .bytes) j = none := by
  induction bss generalizing j with
  | nil => rfl
  | cons bs bss ih => exact ih (j + 1)

theorem firstBad_append_other (bss : List (List (BitVec 8))) (count : Nat) (rest : List DataElement) (j : Nat) :
    firstBad (bss.map .bytes ++ .other count :: rest) j = some (j + bss.length) := by
  induction bss generalizing j with
  | nil => rfl
  | cons bs bss ih =>
    have := ih (j + 1)
    simp only [List.length_cons, List.map_cons, List.cons_append, firstBad]
    rw [this]
    congr 1
    omega

/-- An element contributes as many cells as it counts, or is the one the check rejects. -/
theorem content_length_le (e : DataElement) : e.content.length ≤ e.count := by
  cases e <;> simp [DataElement.content, DataElement.count]

theorem dataWords_length_le (img : Image) : img.dataWords.length ≤ img.dataCount := by
  unfold Image.dataWords Image.dataCount
  rw [List.length_map]
  induction img.elements with
  | nil => simp
  | cons e es ih =>
    have := content_length_le e
    simp only [List.flatMap_cons, List.length_append, List.map_cons, List.sum_cons]
    omega

end Sys2Proof

namespace Sys2Proof.Machine

/-- An accepted configuration is valid, whatever the host's predicates are. -/
theorem configure_ok_valid {delayValid : Rat → Bool} {selectorValid : List Int → Bool} {raw : RawConfig} {c : Config}
    (h : configure delayValid selectorValid raw = .ok c) : c.valid = true := by
  unfold configure at h
  split at h
  · split_ifs at h with hv
    injection h with h
    subst h
    simp only [Bool.and_eq_true, decide_eq_true_eq] at hv
    simp only [Config.valid, Bool.and_eq_true, decide_eq_true_eq]
    exact ⟨by omega, hv.1.2.1⟩
  · cases h

/-- The only error of `configure` is ConfigError. -/
theorem configure_error {delayValid : Rat → Bool} {selectorValid : List Int → Bool} {raw : RawConfig} {e : FaultKind}
    (h : configure delayValid selectorValid raw = .error e) : e = .configError := by
  unfold configure at h
  split at h
  · split_ifs at h
    injection h with h
    exact h.symm
  · injection h with h
    exact h.symm

theorem placeImage_wf (n : Nat) (img : Image) {m : Memory} (hm : m.wf = true) : (placeImage n img m).wf = true :=
  Memory.writeFrom_wf _ _ (Memory.writeFrom_wf _ _ hm)

theorem placeImage_within {n : Nat} {img : Image} {m : Memory} (hm : m.within n = true) (h : img.required ≤ n) :
    (placeImage n img m).within n = true := by
  have := dataWords_length_le img
  unfold Image.required RESERVED_CELLS at h
  refine Memory.writeFrom_within (Memory.writeFrom_within hm (by omega)) ?_
  unfold dataBase RESERVED_CELLS
  omega

theorem memoryAfterBadData_wf (n : Nat) (img : Image) (j : Nat) : (memoryAfterBadData n img j).wf = true :=
  Memory.writeFrom_wf _ _ rfl

theorem memoryAfterBadData_within (n : Nat) (img : Image) (j : Nat) : (memoryAfterBadData n img j).within n = true :=
  Memory.writeFrom_within rfl (by simp)

/-- What the loader leaves (R152): one of its three faults, or the image placed in phase Loaded. -/
theorem loadImage_cases (img : Image) (s : State) :
    img.textWords = [] ∧ loadImage img s = s.raise (.formatError .noText) ∨
    img.textWords ≠ [] ∧ s.n < img.required ∧ loadImage img s = s.raise (.capacityError img.required) ∨
    (img.textWords ≠ [] ∧ img.required ≤ s.n ∧ ∃ j, firstBad img.elements 0 = some j ∧
      loadImage img s = (s.setMem (memoryAfterBadData s.n img j)).raise (.formatError (.badData j))) ∨
    img.textWords ≠ [] ∧ img.required ≤ s.n ∧ firstBad img.elements 0 = none ∧
      loadImage img s = (s.setMem (placeImage s.n img s.mem)).setPhase .loaded := by
  unfold loadImage
  by_cases ht : img.textWords = []
  · exact .inl ⟨ht, if_pos ht⟩
  rw [if_neg ht]
  by_cases hc : s.n < img.required
  · exact .inr (.inl ⟨ht, hc, if_pos hc⟩)
  rw [if_neg hc]
  cases hb : firstBad img.elements 0 with
  | some j => exact .inr (.inr (.inl ⟨ht, by omega, j, rfl, rfl⟩))
  | none => exact .inr (.inr (.inr ⟨ht, by omega, rfl, rfl⟩))

/-- What `load` answers. -/
theorem load_cases (img : Image) (s : State) :
    s.phase ≠ .reset ∧ load img s = .refused (.loadNotEnabled s.phase) ∨
    s.phase = .reset ∧ img.stackWords < 0 ∧ load img s = .refused (.negativeStack img.stackWords) ∨
    s.phase = .reset ∧ 0 ≤ img.stackWords ∧ load img s = .next (loadImage img s) := by
  unfold load
  by_cases hp : s.phase = .reset
  · rw [if_pos hp]
    by_cases hs : img.stackWords < 0
    · exact .inr (.inl ⟨hp, hs, if_pos hs⟩)
    · exact .inr (.inr ⟨hp, by omega, if_neg hs⟩)
  · exact .inl ⟨hp, if_neg hp⟩

/-- What `fill` answers. -/
theorem fill_cases (values : List Int) (s : State) :
    s.phase ≠ .reset ∧ fill values s = .refused (.loadNotEnabled s.phase) ∨
    s.phase = .reset ∧ values.length ≠ s.n ∧ fill values s = .refused (.fillLength values.length) ∨
    s.phase = .reset ∧ values.length = s.n ∧
      fill values s = .next ((s.setMem (s.mem.writeFrom 0 values)).setPhase .loaded) := by
  unfold fill
  by_cases hp : s.phase = .reset
  · rw [if_pos hp]
    by_cases hl : values.length = s.n
    · exact .inr (.inr ⟨hp, hl, if_pos hl⟩)
    · exact .inr (.inl ⟨hp, hl, if_neg hl⟩)
  · exact .inl ⟨hp, if_neg hp⟩

end Sys2Proof.Machine
end

