-- ==== Sys2Proof/Laws/PerInstr.lean ====
section
/-!
SUPPORT. Families of statements about every instruction as syntax, one lemma per constructor.
-/

namespace Sys2Proof.Laws.EncodeBlock

/-- The word of a well-formed instruction lies in the block of `INST_SZ^2` words that belongs to its `a` (R66: the sign and the magnitude of
a word are those of `a`). -/
def Statement : Instr → Prop
  | .subleq a b c => (Instr.subleq a b c).wellFormed = true →
      a * (INST_SZ * INST_SZ) ≤ encode (.subleq a b c) ∧ encode (.subleq a b c) < (a + 1) * (INST_SZ * INST_SZ)

theorem subleq (a b c : Int) : Statement (.subleq a b c) := by
  intro h
  obtain ⟨⟨hb, hb'⟩, hc, hc'⟩ := (wellFormed_subleq a b c).1 h
  rw [encode_eq]
  unfold INST_SZ at *
  constructor <;> omega

end Sys2Proof.Laws.EncodeBlock
end

