-- ==== Sys2Proof/Tests/Slice0.lean ====
section
/-!
SUPPORT. Tests: expected results from 95_test_vectors.md, the well-formedness smoke test, and for every statement with hypotheses a witness
that meets them.
-/

namespace Sys2Proof.Tests

open Sys2Proof.Machine

/-- A running block of `n` cells that hold the given values from cell 0 up, with the given pc. -/
def tiny (n pc : Nat) (cells : List Int) : State :=
  { State.resetWith { n := n, delay := 0, selector := [] } with
    mem := Memory.writeFrom [] 0 cells, pc := pc, phase := .running }

/-- A block of `n` cells right after reset. -/
def fresh (n : Nat) : State := State.resetWith { n := n, delay := 0, selector := [] }

/-- The bytes of a data element, by value. -/
def bs (l : List Nat) : DataElement := .bytes (l.map (BitVec.ofNat 8))

/-- One step, for tests that look at a field of the next state. -/
def after (s : State) : State :=
  match step s with
  | .next t => t
  | _ => s

/-! ### Well-formedness: an ill-formed term for each check (R62) -/

theorem test_wf_limits : (Instr.subleq (-5000000) 0 127).wellFormed = true ∧ (Instr.subleq 128 127 0).wellFormed = true := by decide
theorem test_wf_b_negative : (Instr.subleq 0 (-1) 0).wellFormed = false := by decide
theorem test_wf_b_too_large : (Instr.subleq 0 128 0).wellFormed = false := by decide
theorem test_wf_c_negative : (Instr.subleq 0 0 (-1)).wellFormed = false := by decide
theorem test_wf_c_too_large : (Instr.subleq 0 0 128).wellFormed = false := by decide

/-! ### Decoding -/

/-- `subleq 4 6 1`, 66305, by its bits (R66): `a = 0000100`, `b = 0000110`, `c = 0000001`. -/
theorem test_decode_by_bits : decode 0b000010000001100000001 = .subleq 4 6 1 := by decide

/-- 95_test_vectors.md 2.1: truncating division would give (0, 0, -1). -/
theorem test_decode_negative : decode (-1) = .subleq (-1) 127 127 ∧ decode (-16127) = .subleq (-1) 2 1 := by decide

/-- 95_test_vectors.md 2.1: `a` is unbounded. -/
theorem test_decode_large : decode 1099511627781 = .subleq 67108864 0 5 := by decide

/-- L1-1, with the words the spec gives. -/
theorem test_encode : encode (.subleq 1 2 3) = 16643 ∧ encode (.subleq 127 127 127) = 2097151 ∧
    encode (.subleq (-7) 1 5) = -114555 := by decide

theorem test_decodeTableWord : decodeTableWord 21 66305 = some (.subleq 4 6 1) ∧ decodeTableWord 0 0 = some (.subleq 0 0 0) := by decide

/-! ### The instruction and the step -/

/-- A1, A2, A7, A8, A9 of 95_test_vectors.md 2.3: the written cell and the next pc. -/
theorem test_subleq_vectors :
    ((after (tiny 8 0 [66183, 0, 0, 0, 5, 3])).mem.read 4, (after (tiny 8 0 [66183, 0, 0, 0, 5, 3])).pc) = (2, 1) ∧
    ((after (tiny 8 0 [66183, 0, 0, 0, 3, 3])).mem.read 4, (after (tiny 8 0 [66183, 0, 0, 0, 3, 3])).pc) = (0, 7) ∧
    ((after (tiny 8 2 [0, 9, -114555])).mem.read 1, (after (tiny 8 2 [0, 9, -114555])).pc) = (0, 5) ∧
    ((after (tiny 100 5 [0, 0, 0, 0, 0, 165375, 0, 0, 0, 0, 3, 3])).mem.read 10,
      (after (tiny 100 5 [0, 0, 0, 0, 0, 165375, 0, 0, 0, 0, 3, 3])).pc) = (0, 27) ∧
    (after (tiny 4 0 [16646, 3, 3])).pc = 2 := by decide

/-- A5 and A6 (no wrap at any magnitude), A10 (fall through from `N-1`, output and halt) and A11 (self-modification). -/
theorem test_subleq_corners :
    (after (tiny 4 0 [16643, 2 ^ 70, -(2 ^ 70)])).mem.read 1 = 2361183241434822606848 ∧
    (after (tiny 4 0 [16643, -(2 ^ 63), 1])).mem.read 1 = -9223372036854775809 ∧
    ((after (tiny 4 3 [0, 7, 2, 16640])).mem.read 1, (after (tiny 4 3 [0, 7, 2, 16640])).pc,
      (after (tiny 4 3 [0, 7, 2, 16640])).out, (after (tiny 4 3 [0, 7, 2, 16640])).phase) = (5, 0, [3], .halted) ∧
    ((after (tiny 4 0 [130, 200])).mem.read 0, (after (tiny 4 0 [130, 200])).pc) = (-70, 2) := by decide

/-- B3, B5, B8 and B9 of 95_test_vectors.md 2.2; B9 emits nothing although the output register is positive. -/
theorem test_segFault :
    (after (tiny 2 0 [-32768])).fault = some (.segFault 0 (-32768) (-2) 0) ∧
    (after (tiny 2 0 [256])).fault = some (.segFault 0 256 0 2) ∧
    (after (tiny 2 0 [33024])).fault = some (.segFault 0 33024 2 2) ∧
    ((after (tiny 4 0 [65536, 0, 0, 9])).fault, (after (tiny 4 0 [65536, 0, 0, 9])).out,
      (after (tiny 4 0 [65536, 0, 0, 9])).mem.read 3) = (some (.segFault 0 65536 4 0), [], 9) := by decide

/-- The table of 95_test_vectors.md 2.4. -/
theorem test_output_codes :
    [1, 10, 65, 126, 127, 128, 200, 205, 254, 16640, 2 ^ 70].map outputCode = [1, 10, 65, 126, 0, 1, 73, 78, 0, 3, 1] := by decide

/-- O1 and O4: 65 is emitted, -65 is not. -/
theorem test_monitor_step : (after (tiny 4 0 [49409, 0, -65])).out = [65] ∧ (after (tiny 4 0 [49409, 0, 65])).out = [] := by decide

/-- H3 (`pc = 0` but `mem[0]` is not 0) and H5 (the target wraps to 0). -/
theorem test_halt : (after (tiny 2 0 [16512, -5])).halted = false ∧ (after (tiny 4 0 [4])).halted = true := by decide

/-- The first step from reset with the opcode table's row placed where the block fetches: `subleq 0 0 0` runs and halts (H1). -/
theorem test_row_runs_after_reset : (after (State.reset.withFetchWord 8 0)).phase = .halted := by decide

/-- No step from reset itself (90_conflicts.md C9). -/
theorem test_no_step_in_reset : step State.reset = .refused (.stepNotEnabled .reset) := by rfl

/-! ### Load and fill (95_test_vectors.md 2.6) -/

/-- The state a load leaves, for tests that look at a field of it. -/
def loaded (n : Nat) (img : Image) : State :=
  match load img (fresh n) with
  | .next t => t
  | _ => fresh n

/-- LD3 and LD8. -/
theorem test_load_places :
    (List.range 10).map (loaded 10 ⟨some [7], some [bs [97, 98], bs [99]], some 2⟩).mem.read = [7, 0, 0, 0, 0, 0, 97, 98, 99, 0] ∧
    (List.range 4).map (loaded 4 ⟨some [0], some [bs [251]], none⟩).mem.read = [0, 0, 251, 0] := by decide

/-- LD2, LD5, LD6 and LD9: the fault status. -/
theorem test_load_faults :
    (loaded 4 ⟨some [1, 2, 3, 4], none, none⟩).fault = some (.capacityError 5) ∧
    (loaded 6 ⟨some [0], some [bs [120]], some 4⟩).fault = some (.capacityError 7) ∧
    (loaded 4 ⟨some [], none, none⟩).fault = some (.formatError .noText) ∧
    (loaded 8 ⟨some [5, 6], some [bs [97], .other 1], none⟩).fault = some (.formatError (.badData 1)) := by
  refine ⟨by decide, by decide, by decide, rfl⟩

/-! ### Witnesses: for each statement with hypotheses, a state and operands that meet them -/

theorem witness_decode : decode 2097151 = .subleq 127 127 127 ∧ decode 2097152 = .subleq 128 0 0 ∧ decode 0 = .subleq 0 0 0 := by decide

theorem witness_DecodeIsABijection : decode (-1) = decode (-1) ∧ (0 : Int) ≤ 127 ∧ (127 : Int) < 128 := by decide

theorem witness_ReachOfEachField : inRange 2 (-1) = true ∧ resolve 2 (-1) = 1 ∧ inRange 128 127 = true ∧ resolve 128 127 = 127 ∧
    inRange 127 127 = false ∧ (127 : Int).fmod (129 : Nat) = 127 := by decide

theorem witness_ResolveOfSignedAddresses : resolve 4 0 = 0 ∧ resolve 4 3 = 3 ∧ resolve 4 (-3) = 1 ∧ resolve 4 (-1) = 3 := by decide

theorem witness_OutOfRangeNamesNoCell : inRange 4 4 = false ∧ inRange 4 (-4) = false ∧ inRange 4 3 = true ∧ inRange 4 (-3) = true := by
  decide

theorem witness_MemReadAnswersTheCell : -((tiny 4 0 [0, 0, 0, 9]).n : Int) < -1 ∧ (-1 : Int) < (tiny 4 0 [0, 0, 0, 9]).n ∧
    2 ≤ (tiny 4 0 [0, 0, 0, 9]).n := by decide

theorem witness_MemWriteSetsOneCell : (tiny 4 0 [5]).mem.wf = true ∧ -((tiny 4 0 [5]).n : Int) < -3 ∧ (-3 : Int) < (tiny 4 0 [5]).n := by
  decide

/-- A block about to run A10, with its pc at the last cell. -/
theorem witness_Inv : (tiny 4 3 [0, 7, 2, 16640]).Inv :=
  ⟨by decide, by decide, by decide, by decide, by decide, by decide, by decide, by decide⟩

theorem witness_FetchAnswersTheWordAtPc : (tiny 4 3 [0, 7, 2, 16640]).Inv := witness_Inv

theorem witness_CanonicalMemoryIsExtensional : Memory.wf [(1, 5)] = true ∧ Memory.wf (Memory.write [] 1 5) = true ∧
    ∀ i, Memory.read [(1, 5)] i = Memory.read (Memory.write [] 1 5) i := ⟨by decide, by decide, fun _ => rfl⟩

theorem witness_SubleqCompletes : (tiny 8 2 [0, 9, -114555]).mem.wf = true ∧ -((tiny 8 2 [0, 9, -114555]).n : Int) < -7 ∧
    (-7 : Int) < (tiny 8 2 [0, 9, -114555]).n ∧ -((tiny 8 2 [0, 9, -114555]).n : Int) < 1 ∧ (1 : Int) < (tiny 8 2 [0, 9, -114555]).n := by
  decide

theorem witness_SubleqTakesSegFault : (-2 : Int) ≤ -((tiny 2 0 []).n : Int) ∧ ((tiny 2 0 []).n : Int) ≤ 2 := by decide

theorem witness_SubleqFrame_in : (tiny 2 0 []).mem.wf = true ∧ ∃ t, exec (.subleq (-1) 1 0) (tiny 2 0 []) = .next t := ⟨by decide, _, rfl⟩

theorem witness_SubleqFrame_out : (tiny 2 0 []).mem.wf = true ∧ ∃ t, exec (.subleq 2 0 0) (tiny 2 0 []) = .next t := ⟨by decide, _, rfl⟩

theorem witness_SameCellClearsAndBranches : resolve (tiny 8 2 [0, 9, -114555]).n (-7) = resolve (tiny 8 2 [0, 9, -114555]).n 1 := by decide

theorem witness_SequentialAndBranchWrap_fall : (tiny 4 3 [0, 7, 2, 16640]).pc = (tiny 4 3 [0, 7, 2, 16640]).n - 1 ∧
    ∃ t, exec (.subleq 1 2 0) (tiny 4 3 [0, 7, 2, 16640]) = .next t ∧ 0 < t.mem.read 1 := ⟨by decide, _, rfl, by decide⟩

theorem witness_SequentialAndBranchWrap_branch : ((tiny 4 0 [4]).n : Int) ≤ 4 ∧
    ∃ t, exec (.subleq 0 0 4) (tiny 4 0 [4]) = .next t ∧ t.mem.read 0 ≤ 0 := ⟨by decide, _, rfl, by decide⟩

theorem witness_StepRunsTheDecodedInstruction : (tiny 4 3 []).enabled = true ∧ (tiny 4 3 []).pc < (tiny 4 3 []).n := by decide

/-- A step in range that writes its own word (A11). -/
theorem witness_Fetched_in : (tiny 4 0 [130, 200]).mem.wf = true ∧ Fetched (tiny 4 0 [130, 200]) 0 1 2 ∧
    inRange (tiny 4 0 [130, 200]).n 0 = true ∧ inRange (tiny 4 0 [130, 200]).n 1 = true ∧ resolve (tiny 4 0 [130, 200]).n 0 = 0 :=
  ⟨by decide, ⟨by decide, by decide, by decide⟩, by decide, by decide, by decide⟩

/-- Steps out of range: `a = N`, `a = -N`, `b = N` (B4, B3, B5). -/
theorem witness_Fetched_out : Fetched (tiny 2 0 [32768]) 2 0 0 ∧ Fetched (tiny 2 0 [-32768]) (-2) 0 0 ∧ Fetched (tiny 2 0 [256]) 0 2 0 ∧
    inRange 2 2 = false ∧ inRange 2 (-2) = false :=
  ⟨⟨by decide, by decide, by decide⟩, ⟨by decide, by decide, by decide⟩, ⟨by decide, by decide, by decide⟩, by decide, by decide⟩

theorem witness_NoStepWhereNoneIsEnabled : (fresh 2).enabled = false ∧ (tiny 2 0 []).enabled = true := by decide

theorem witness_EnabledStepAnswersNext : (tiny 4 3 [0, 7, 2, 16640]).Inv ∧ (tiny 4 3 [0, 7, 2, 16640]).enabled = true :=
  ⟨witness_Inv, by decide⟩

theorem witness_step_running : ∃ t, step (tiny 8 0 [66183, 0, 0, 0, 5, 3]) = .next t ∧ t.phase = .running := ⟨_, rfl, by decide⟩

theorem witness_step_halted : ∃ t, step (tiny 4 3 [0, 7, 2, 16640]) = .next t ∧ t.phase = .halted ∧ t.halted = true := ⟨_, rfl, by decide⟩

theorem witness_step_faulted : ∃ t, step (tiny 2 0 [33024]) = .next t ∧ t.phase = .faulted := ⟨_, rfl, by decide⟩

theorem witness_StepKeepsTheInvariant : (tiny 4 3 [0, 7, 2, 16640]).Inv ∧ ∃ t, step (tiny 4 3 [0, 7, 2, 16640]) = .next t :=
  ⟨witness_Inv, _, rfl⟩

theorem witness_ResetMeetsTheInvariant : Config.valid { n := 2, delay := 0, selector := [] } = true := by decide

theorem witness_MonitorEmitsOnlyPositiveValues : 0 < (tiny 2 0 [0, 1]).mem.read 1 ∧ (tiny 2 0 [0, 0]).mem.read 1 ≤ 0 := by decide

/-- P4: the register holds 66 after each of two steps. -/
theorem witness_PositiveRegisterEmitsEveryStep : (0 : Int) < 66 ∧ ∀ j, j < 2 →
    ∃ u t, runFor j (tiny 4 0 [-16127, 0, -66, 0]) = .next u ∧ u.enabled = true ∧ step u = .next t ∧
      t.fault = none ∧ t.mem.read ((tiny 4 0 [-16127, 0, -66, 0]).n - 1) = 66 := by
  refine ⟨by decide, fun j hj => ?_⟩
  match j, hj with
  | 0, _ => exact ⟨_, _, rfl, by decide, rfl, by decide, by decide⟩
  | 1, _ => exact ⟨_, _, rfl, by decide, rfl, by decide, by decide⟩

theorem witness_OutputStreamIsAppendOnly : ∃ t, runFor 2 (tiny 4 0 [-16127, 0, -66, 0]) = .next t ∧ t.out = [66, 66] := ⟨_, rfl, by decide⟩

/-- H5: `subleq 0 0 4` in a memory of 4 cells. -/
theorem witness_ClearingCellZeroAndJumpingThereHalts : (tiny 4 0 [4]).mem.wf = true ∧ Fetched (tiny 4 0 [4]) 0 0 4 ∧
    (4 : Int).fmod (tiny 4 0 [4]).n = 0 := ⟨by decide, ⟨by decide, by decide, by decide⟩, by decide⟩

/-- H1, with a positive output register. -/
theorem witness_HaltConditionIsNotTestedFirst : (tiny 4 0 [0, 0, 0, 9]).mem.wf = true ∧ (tiny 4 0 [0, 0, 0, 9]).enabled = true ∧
    0 < (tiny 4 0 [0, 0, 0, 9]).n ∧ (tiny 4 0 [0, 0, 0, 9]).pc = 0 ∧ (tiny 4 0 [0, 0, 0, 9]).mem.read 0 = 0 := by decide

theorem witness_HaltedBlockIsFinal : (after (tiny 4 0 [0])).halted = true := by decide

theorem witness_RunLoopComposes : ∃ t, runFor 1 (tiny 4 0 [-16127, 0, -66, 0]) = .next t := ⟨_, rfl⟩

theorem witness_RunEndsInExactlyOneWay : (tiny 4 3 [0, 7, 2, 16640]).Inv ∧ (tiny 4 3 [0, 7, 2, 16640]).enabled = true ∧
    ∃ t, runFor 1 (tiny 4 3 [0, 7, 2, 16640]) = .next t ∧ t.phase = .halted := ⟨witness_Inv, by decide, _, rfl, by decide⟩

theorem witness_ConfigurationIsReadOnly : (∃ t, load ⟨some [1], none, none⟩ (fresh 2) = .next t) ∧ ∃ t, fill [1, 2] (fresh 2) = .next t :=
  ⟨⟨_, rfl⟩, _, rfl⟩

theorem witness_ObserverSeesTheStateBeforeEachStep : (1 : Nat) < 2 ∧
    ∃ u, runFor 1 (tiny 4 0 [-16127, 0, -66, 0]) = .next u ∧ u.enabled = true := ⟨by decide, _, rfl, by decide⟩

/-- States of the block that report the halt, a fault and nothing. -/
theorem witness_ReportIsTheHaltOrTheFault : (tiny 2 0 []).Inv ∧ (after (tiny 2 0 [])).Inv ∧ (after (tiny 2 0 [33024])).Inv ∧
    (after (tiny 2 0 [])).report = some .halted ∧ (after (tiny 2 0 [33024])).report = some (.fault (.segFault 0 33024 2 2)) :=
  ⟨⟨by decide, by decide, by decide, by decide, by decide, by decide, by decide, by decide⟩,
   ⟨by decide, by decide, by decide, by decide, by decide, by decide, by decide, by decide⟩,
   ⟨by decide, by decide, by decide, by decide, by decide, by decide, by decide, by decide⟩, by decide, by decide⟩

theorem witness_ConfigureAcceptsExactlyTheValid :
    configure (fun _ => true) (fun _ => true) ⟨some 2, some 0, some []⟩ = .ok { n := 2, delay := 0, selector := [] } ∧
    configure (fun _ => true) (fun _ => true) ⟨some 1, some 0, some []⟩ = .error .configError ∧
    configure (fun _ => true) (fun _ => true) ⟨some 2, some (-1), some []⟩ = .error .configError ∧
    configure (fun _ => false) (fun _ => true) ⟨some 2, some 0, some []⟩ = .error .configError := ⟨rfl, rfl, by rfl, rfl⟩

/-- A block right after reset meets the invariant, for the statements about loads and fills. -/
theorem witness_fresh_Inv (n : Nat) (h : 2 ≤ n) : (fresh n).Inv :=
  ⟨by simp [fresh, State.resetWith, Config.valid, h], ⟨rfl, rfl⟩, Nat.lt_of_lt_of_le Nat.zero_lt_two h, fun _ hk => (List.not_mem_nil hk).elim, rfl,
   by simp [fresh, State.resetWith], fun _ => ⟨rfl, rfl⟩, fun _ => rfl⟩

/-- LD4: `required = N` exactly, with a stack reservation; and LD1, with data and stack absent. -/
theorem witness_LoadPlacesTextAndData : (fresh 6).Inv ∧ (fresh 6).phase = .reset ∧
    ((some [DataElement.bytes [120]]).getD [] = [[120]].map DataElement.bytes) ∧ ((some 3 : Option Int).getD 0 = (3 : Nat)) ∧
    1 + 1 + ([[120]] : List (List (BitVec 8))).flatten.length + 3 ≤ (fresh 6).n ∧
    (fresh 4).Inv ∧ ((none : Option (List DataElement)).getD [] = [].map DataElement.bytes) ∧
    3 + 1 + ([] : List (List (BitVec 8))).flatten.length + 0 ≤ (fresh 4).n :=
  ⟨witness_fresh_Inv 6 (by decide), rfl, rfl, rfl, by decide, witness_fresh_Inv 4 (by decide), rfl, by decide⟩

theorem witness_LoadWithoutTextIsAFormatError : (fresh 4).phase = .reset ∧ 0 ≤ (none : Option Int).getD 0 := by decide

/-- LD2 (`required = N + 1`) and LD1 (`required = N`). -/
theorem witness_LoadOverCapacityIsACapacityError : (fresh 4).phase = .reset ∧ (fresh 4).fault = none ∧
    (fresh 4).n < 4 + 1 + (((none : Option (List DataElement)).getD []).map DataElement.count).sum + 0 ∧
    3 + 1 + (((none : Option (List DataElement)).getD []).map DataElement.count).sum + 0 ≤ (fresh 4).n := by decide

/-- LD9. -/
theorem witness_LoadOfBadDataIsAFormatError : (fresh 8).phase = .reset ∧
    Image.data ⟨some [5, 6], some [bs [97], .other 1], none⟩ = some ([[97]].map DataElement.bytes ++ .other 1 :: []) ∧
    Image.required ⟨some [5, 6], some [bs [97], .other 1], none⟩ ≤ (fresh 8).n := by decide

/-- LD4 with stack 3 and with stack 0. -/
theorem witness_StackReservationOnlyEntersTheCapacityCheck : (fresh 6).phase = .reset ∧
    ([0] : List Int).length + 1 + ([[120]] : List (List (BitVec 8))).flatten.length + 3 ≤ (fresh 6).n := by decide

/-- F1, and F2 for a length that is not `N`. -/
theorem witness_FillWritesEveryCell : (fresh 3).mem.wf = true ∧ (fresh 3).phase = .reset ∧ [-1, 5, (2 : Int) ^ 40].length = (fresh 3).n ∧
    [(1 : Int)].length ≠ (fresh 3).n := by decide

/-- F3, and a negative stack. -/
theorem witness_HostActionsRefusedWhereTheyHaveNoMove : (loaded 4 ⟨some [1, 2, 3], none, none⟩).phase ≠ .reset ∧
    (fresh 4).phase = .reset ∧ (some (-1) : Option Int).getD 0 < 0 := by decide

theorem witness_LoadAndFillKeepTheInvariant : (fresh 2).Inv ∧ (∃ t, load ⟨none, none, none⟩ (fresh 2) = .next t) ∧
    ∃ t, fill [1, 0] (fresh 2) = .next t := ⟨witness_fresh_Inv 2 (by decide), ⟨_, rfl⟩, _, rfl⟩

theorem witness_WithFetchWordIsFetchedNext : State.reset.mem.wf = true ∧ State.reset.pc < State.reset.n ∧
    (tiny 2 1 []).mem.wf = true ∧ (tiny 2 1 []).pc < (tiny 2 1 []).n := by decide

end Sys2Proof.Tests
end

section
/-!
PROOFS of the scope family: the invariant of the block's states (O27, O28), and that nothing reads `DELAY` or `SELECTOR` (O38).
-/

namespace Sys2Proof.Machine

/-! ### The invariant at reset -/

/-- A valid configuration has at least two cells (R6). -/
theorem two_le_of_config_valid {c : Config} (h : c.valid = true) : 2 ≤ c.n := by
  simp only [Config.valid, Bool.and_eq_true, decide_eq_true_eq] at h
  exact h.1

theorem resetWith_inv {c : Config} (h : c.valid = true) : (State.resetWith c).Inv where
  config := h
  mem := State.resetWith_mem_wf c
  pc := Nat.lt_of_lt_of_le Nat.zero_lt_two (two_le_of_config_valid h)
  codes := fun _ hk => absurd hk List.not_mem_nil
  phase := rfl
  halted := fun _ => ⟨rfl, rfl⟩
  unstarted := fun _ => ⟨rfl, rfl⟩
  reset := fun _ => rfl

theorem defaultConfig_valid : defaultConfig.valid = true := by decide

/-- Settles O28: every field of the reset state has the value its clause asks for. -/
theorem resetMeetsTheInvariant : Obligations.ResetMeetsTheInvariant :=
  ⟨fun _ h => resetWith_inv h, resetWith_inv defaultConfig_valid⟩

/-! ### The invariant in a running block and along a step -/

/-- In phase Running the clauses about the halt and about the time before the run say only that no flag is set. -/
theorem inv_iff_of_running {s : State} (h : s.phase = .running) :
    s.Inv ↔ s.config.valid = true ∧ s.MemOk ∧ s.pc < s.n ∧ s.CodesOk ∧ s.halted = false ∧ s.fault = none := by
  constructor
  · intro hs
    have hflags : s.halted = false ∧ s.fault = none := by
      have hp := hs.phase
      unfold State.phaseAgrees at hp
      rw [h] at hp
      cases hf : s.fault with
      | none => cases hh : s.halted <;> simp [hf, hh] at hp ⊢
      | some f => cases hh : s.halted <;> cases f <;> simp [hf, hh] at hp
    exact ⟨hs.config, hs.mem, hs.pc, hs.codes, hflags⟩
  · rintro ⟨hc, hm, hpc, ho, hh, hf⟩
    exact
      { config := hc
        mem := hm
        pc := hpc
        codes := ho
        phase := by simp [State.phaseAgrees, hf, hh, h]
        halted := by simp [hh]
        unstarted := by simp [State.Unstarted, h]
        reset := by simp [h] }

theorem beginStep_inv {s : State} (hs : s.Inv) (he : s.enabled = true) : s.beginStep.Inv := by
  obtain ⟨-, hh, hf⟩ := (State.enabled_iff s).1 he
  exact (inv_iff_of_running (s := s.beginStep) rfl).2 ⟨hs.config, hs.mem, hs.pc, hs.codes, hh, hf⟩

/-- The written cell exists (R41), so the write keeps memory canonical and in its size. -/
theorem afterSubleq_memOk {s : State} {a : Int} (b c : Int) (hm : s.MemOk) (ha : inRange s.n a = true) :
    (afterSubleq s a b c).MemOk :=
  ⟨Memory.write_wf _ _ hm.1, Memory.write_within _ hm.2 (resolve_lt ha)⟩

/-- The jump lands in memory (R87). -/
theorem afterSubleq_pc_lt {s : State} (a b c : Int) (hn : 0 < s.n) : (afterSubleq s a b c).pc < s.n :=
  jumpTo_pc_lt _ _ hn

theorem afterSubleq_inv {s : State} {a : Int} (b c : Int) (hr : s.phase = .running) (hs : s.Inv)
    (ha : inRange s.n a = true) : (afterSubleq s a b c).Inv := by
  obtain ⟨hc, hm, hpc, ho, hflags⟩ := (inv_iff_of_running hr).1 hs
  exact (inv_iff_of_running (s := afterSubleq s a b c) hr).2
    ⟨hc, afterSubleq_memOk b c hm ha, afterSubleq_pc_lt a b c (Nat.zero_lt_of_lt hpc), ho, hflags⟩

theorem emitted_lt {s : State} {k : Nat} (hk : k ∈ emitted s) : (k : Int) < OUT_MOD := by
  unfold emitted at hk
  split_ifs at hk
  · rw [List.mem_singleton.1 hk, outputCode_eq]
    exact fmod_lt _ OUT_MOD_pos
  · exact absurd hk List.not_mem_nil

/-- The output monitor keeps the codes in range (R27). -/
theorem codesOk_append_emitted {s : State} (ho : s.CodesOk) : ∀ k ∈ s.out ++ emitted s, (k : Int) < OUT_MOD := by
  intro k hk
  exact (List.mem_append.1 hk).elim (ho k) emitted_lt

/-- Halt detection sets the flag only where `pc` and cell 0 are 0 (R107), so the end of a step keeps the invariant. -/
theorem endStep_inv {s : State} (hr : s.phase = .running) (hs : s.Inv) : s.endStep.Inv := by
  obtain ⟨hc, hm, hpc, ho, hh, hf⟩ := (inv_iff_of_running hr).1 hs
  have hcodes := codesOk_append_emitted ho
  rcases endStep_cases hf with ⟨hhalt, heq⟩ | ⟨-, heq⟩ <;> rw [heq]
  · exact
      { config := hc
        mem := hm
        pc := hpc
        codes := hcodes
        phase := by simp [State.phaseAgrees, hf]
        halted := fun _ => hhalt
        unstarted := by simp [State.Unstarted]
        reset := by simp }
  · exact (inv_iff_of_running (s := s.setOut (s.out ++ emitted s)) hr).2 ⟨hc, hm, hpc, hcodes, hh, hf⟩

/-- Taking SegFault (R126) keeps the invariant of a block that has not halted. -/
theorem raise_segFault_inv {s : State} (pc : Nat) (w a b : Int) (hs : s.Inv) (hh : s.halted = false) :
    (s.raise (.segFault pc w a b)).Inv where
  config := hs.config
  mem := hs.mem
  pc := hs.pc
  codes := hs.codes
  phase := by simp [State.phaseAgrees, hh]
  halted := hs.halted
  unstarted := by simp [State.Unstarted]
  reset := by simp

/-- The next states of a step (R96): SegFault taken, or the whole effect with the end of the step. -/
theorem step_next_cases {s t : State} (h : step s = .next t) :
    ∃ a b c, Fetched s a b c ∧
      (¬ (inRange s.n a = true ∧ inRange s.n b = true) ∧ t = s.raise (.segFault s.pc (s.mem.read s.pc) a b) ∨
        (inRange s.n a = true ∧ inRange s.n b = true) ∧ t = (afterSubleq s.beginStep a b c).endStep) := by
  rcases step_cases s with ⟨-, hx⟩ | ⟨-, -, hx⟩ | ⟨a, b, c, hf, ⟨hr, hx⟩ | ⟨hr, hx⟩⟩ <;> rw [hx] at h
  · cases h
  · cases h
  · exact ⟨a, b, c, hf, .inl ⟨hr, (Host.Outcome.next.inj h).symm⟩⟩
  · exact ⟨a, b, c, hf, .inr ⟨hr, (Host.Outcome.next.inj h).symm⟩⟩

theorem step_inv {s t : State} (hs : s.Inv) (h : step s = .next t) : t.Inv := by
  obtain ⟨a, b, c, hf, ⟨-, rfl⟩ | ⟨⟨ha, -⟩, rfl⟩⟩ := step_next_cases h
  · obtain ⟨-, hh, -⟩ := (State.enabled_iff s).1 hf.enabled
    exact raise_segFault_inv _ _ _ _ hs hh
  · have hbegin : s.beginStep.Inv := beginStep_inv hs hf.enabled
    have hafter : (afterSubleq s.beginStep a b c).Inv := afterSubleq_inv b c rfl hbegin ha
    exact endStep_inv rfl hafter

/-- Settles O27: `step` answers a next state only by taking SegFault or by the write and jump with the end of the step, and each of these
keeps the invariant. -/
theorem stepKeepsTheInvariant : Obligations.StepKeepsTheInvariant :=
  fun _ _ hs h => step_inv hs h

/-! ### `DELAY` and `SELECTOR`

Every stage of a step commutes with the change of the two parameters: what it reads (`N`, memory, `pc`, flags, phase) is the same. -/

section HostParams

variable (s : State) (delay : Rat) (selector : List Int)

@[simp] theorem State.withHostParams_n : (s.withHostParams delay selector).n = s.n := rfl
@[simp] theorem State.withHostParams_mem : (s.withHostParams delay selector).mem = s.mem := rfl
@[simp] theorem State.withHostParams_pc : (s.withHostParams delay selector).pc = s.pc := rfl
@[simp] theorem State.withHostParams_halted : (s.withHostParams delay selector).halted = s.halted := rfl
@[simp] theorem State.withHostParams_fault : (s.withHostParams delay selector).fault = s.fault := rfl
@[simp] theorem State.withHostParams_out : (s.withHostParams delay selector).out = s.out := rfl
@[simp] theorem State.withHostParams_phase : (s.withHostParams delay selector).phase = s.phase := rfl
@[simp] theorem State.withHostParams_enabled : (s.withHostParams delay selector).enabled = s.enabled := rfl

theorem fetch_withHostParams : fetch (s.withHostParams delay selector) = fetch s := rfl

theorem execSubleq_withHostParams (a b c : Int) :
    execSubleq a b c (s.withHostParams delay selector) =
      mapNext (·.withHostParams delay selector) (execSubleq a b c s) := by
  rcases execSubleq_cases a b c s with ⟨⟨ha, hb⟩, hx⟩ | ⟨hr, hx⟩
  · rw [hx, execSubleq_of_inRange (s := s.withHostParams delay selector) c ha hb]
    rfl
  · rw [hx, execSubleq_of_not_inRange (s := s.withHostParams delay selector) c hr]
    rfl

theorem monitor_withHostParams :
    (s.withHostParams delay selector).monitor = s.monitor.withHostParams delay selector := by
  rw [monitor_eq, monitor_eq]
  rfl

theorem detectHalt_withHostParams :
    (s.withHostParams delay selector).detectHalt = s.detectHalt.withHostParams delay selector := by
  rcases detectHalt_cases s with ⟨h, hx⟩ | ⟨h, hx⟩
  · rw [hx]
    exact if_pos ((haltCondition_iff _).2 h)
  · rw [hx]
    exact if_neg (mt (haltCondition_iff _).1 h)

theorem endStep_withHostParams :
    (s.withHostParams delay selector).endStep = s.endStep.withHostParams delay selector := by
  cases hf : s.fault with
  | some f => rw [endStep_of_fault hf, endStep_of_fault (s := s.withHostParams delay selector) hf]
  | none => simp [State.endStep, hf, monitor_withHostParams, detectHalt_withHostParams]

theorem finishStep_mapNext_withHostParams (o : Host.Outcome State Fault Refusal) :
    finishStep (mapNext (·.withHostParams delay selector) o) = mapNext (·.withHostParams delay selector) (finishStep o) := by
  cases o with
  | next t => exact congrArg Host.Outcome.next (endStep_withHostParams t delay selector)
  | fault f => rfl
  | refused r => rfl

theorem step_withHostParams :
    step (s.withHostParams delay selector) = mapNext (·.withHostParams delay selector) (step s) := by
  cases he : s.enabled with
  | false => rw [step_of_not_enabled he, step_of_not_enabled (s := s.withHostParams delay selector) he]; rfl
  | true =>
    by_cases hp : s.pc < s.n
    · cases hw : decode (s.mem.read s.pc) with
      | subleq a b c =>
        rw [step_of_fetched ⟨he, hp, hw⟩, ← finishStep_mapNext_withHostParams, ← execSubleq_withHostParams]
        exact step_of_fetched ⟨he, hp, hw⟩
    · simp [step, he, fetch_withHostParams, fetch_of_not_lt hp, mapNext]

end HostParams

theorem runFor_withHostParams (fuel : Nat) (s : State) (delay : Rat) (selector : List Int) :
    runFor fuel (s.withHostParams delay selector) = mapNext (·.withHostParams delay selector) (runFor fuel s) := by
  induction fuel generalizing s with
  | zero => rfl
  | succ fuel ih =>
    cases he : s.enabled with
    | false => rw [runFor_of_not_enabled _ he, runFor_of_not_enabled _ (s := s.withHostParams delay selector) he]; rfl
    | true =>
      have hstep := step_withHostParams s delay selector
      cases hs : step s with
      | next t =>
        rw [hs] at hstep
        rw [runFor_succ he hs, runFor_succ (s := s.withHostParams delay selector) he hstep, ih]
      | fault f => simp [runFor, he, hstep, hs, mapNext]
      | refused r => simp [runFor, he, hstep, hs, mapNext]

/-- Settles O38: one step commutes with the change of the two parameters, so a run does, by induction on its fuel. -/
theorem delayAndSelectorHaveNoEffect : Obligations.DelayAndSelectorHaveNoEffect :=
  runFor_withHostParams

end Sys2Proof.Machine
end

section
/-!
PROOFS of the state family: equal reads mean equal memories (O12), the output stream is append-only (O31), the configuration is read-only
(O39), and loading keeps the invariant (O52).
-/

namespace Sys2Proof.Machine

/-! ### The canonical form of memory -/

/-- The first listed cell of a canonical memory is the lowest cell that does not read as unlisted. -/
theorem Memory.head_le_of_read_ne {lo i k : Nat} {v : Int} {rest : Memory} (hm : Memory.wfFrom lo ((i, v) :: rest) = true)
    (hk : Memory.read ((i, v) :: rest) k ≠ Memory.unlisted) : i ≤ k := by
  by_contra hlt
  have hfrom : Memory.wfFrom i ((i, v) :: rest) = true :=
    (Memory.wfFrom_cons ..).2 ⟨le_rfl, ((Memory.wfFrom_cons ..).1 hm).2⟩
  exact hk (Memory.read_below hfrom (by omega))

theorem Memory.read_head (i : Nat) (v : Int) (rest : Memory) : Memory.read ((i, v) :: rest) i = v := by
  rw [Memory.read_cons, if_pos rfl]

/-- What the rest of a canonical memory reads as, by the reads of the whole. -/
theorem Memory.read_tail {i : Nat} {rest : Memory} (v : Int) (hrest : Memory.wfFrom (i + 1) rest = true) (k : Nat) :
    rest.read k = if k = i then Memory.unlisted else Memory.read ((i, v) :: rest) k := by
  by_cases hk : k = i
  · rw [if_pos hk, Memory.read_below hrest (by omega)]
  · rw [if_neg hk, Memory.read_cons, if_neg hk]

/-- Equal reads force equal first cells, and then the rests read alike too. -/
theorem Memory.eq_of_read_eq {lo : Nat} {m m' : Memory} (hm : Memory.wfFrom lo m = true) (hm' : Memory.wfFrom lo m' = true)
    (h : ∀ k, m.read k = m'.read k) : m = m' := by
  induction m generalizing lo m' with
  | nil =>
    cases m' with
    | nil => rfl
    | cons c' rest' =>
      obtain ⟨j, u⟩ := c'
      obtain ⟨-, hu, -⟩ := (Memory.wfFrom_cons ..).1 hm'
      exact absurd ((Memory.read_head j u rest').symm.trans (h j).symm) hu
  | cons c rest ih =>
    obtain ⟨i, v⟩ := c
    obtain ⟨-, hv, hrest⟩ := (Memory.wfFrom_cons ..).1 hm
    have hvi : Memory.read m' i = v := (h i).symm.trans (Memory.read_head i v rest)
    cases m' with
    | nil => exact absurd hvi.symm hv
    | cons c' rest' =>
      obtain ⟨j, u⟩ := c'
      obtain ⟨-, hu, hrest'⟩ := (Memory.wfFrom_cons ..).1 hm'
      have huj : Memory.read ((i, v) :: rest) j = u := (h j).trans (Memory.read_head j u rest')
      have hij : i = j :=
        le_antisymm (Memory.head_le_of_read_ne hm (huj ▸ hu)) (Memory.head_le_of_read_ne hm' (hvi ▸ hv))
      subst hij
      have hvu : v = u := hvi.symm.trans (Memory.read_head i u rest')
      subst hvu
      have htails : ∀ k, Memory.read rest k = Memory.read rest' k := fun k => by
        rw [Memory.read_tail v hrest, Memory.read_tail v hrest', h k]
      rw [ih hrest hrest' htails]

/-- Settles O12, by induction on the list of cells. -/
theorem canonicalMemoryIsExtensional : Obligations.CanonicalMemoryIsExtensional :=
  fun _ _ hm hm' h => Memory.eq_of_read_eq hm hm' h

/-! ### The output stream -/

/-- From `s` to `t` the output stream grows by at most `n` codes, each in range (R27). -/
def AppendsAtMost (n : Nat) (s t : State) : Prop :=
  ∃ codes : List Nat, t.out = s.out ++ codes ∧ codes.length ≤ n ∧ ∀ k ∈ codes, (k : Int) < OUT_MOD

theorem AppendsAtMost.of_out_eq {s t : State} (n : Nat) (h : t.out = s.out) : AppendsAtMost n s t :=
  ⟨[], by rw [h, List.append_nil], Nat.zero_le n, fun _ hk => absurd hk List.not_mem_nil⟩

theorem AppendsAtMost.trans {m n : Nat} {s t u : State} (hst : AppendsAtMost m s t) (htu : AppendsAtMost n t u) :
    AppendsAtMost (n + m) s u := by
  obtain ⟨codes, hout, hlen, hcodes⟩ := hst
  obtain ⟨codes', hout', hlen', hcodes'⟩ := htu
  refine ⟨codes ++ codes', by rw [hout', hout, List.append_assoc], ?_, fun k hk => ?_⟩
  · rw [List.length_append]
    omega
  · exact (List.mem_append.1 hk).elim (hcodes k) (hcodes' k)

theorem emitted_length_le (s : State) : (emitted s).length ≤ 1 := by
  unfold emitted
  split_ifs
  · exact le_rfl
  · exact Nat.zero_le 1

/-- The end of a step appends what the monitor emits, or nothing where the step raised a fault (R106). -/
theorem endStep_appends (s : State) : AppendsAtMost 1 s s.endStep := by
  cases hf : s.fault with
  | some f => exact .of_out_eq 1 (by rw [endStep_of_fault hf])
  | none =>
    have hout : s.endStep.out = s.out ++ emitted s := by
      rcases endStep_cases hf with ⟨-, heq⟩ | ⟨-, heq⟩ <;> rw [heq] <;> rfl
    exact ⟨emitted s, hout, emitted_length_le s, fun _ => emitted_lt⟩

theorem step_appends {s t : State} (h : step s = .next t) : AppendsAtMost 1 s t := by
  obtain ⟨a, b, c, -, ⟨-, rfl⟩ | ⟨-, rfl⟩⟩ := step_next_cases h
  · exact .of_out_eq 1 (State.raise_out ..)
  · exact endStep_appends (afterSubleq s.beginStep a b c)

/-- A run that answers a state had nothing to do, or took a step and went on from there. -/
theorem runFor_succ_next_cases {fuel : Nat} {s t : State} (h : runFor (fuel + 1) s = .next t) :
    s.enabled = false ∧ t = s ∨ ∃ u, step s = .next u ∧ runFor fuel u = .next t := by
  cases he : s.enabled with
  | false =>
    rw [runFor_of_not_enabled _ he] at h
    exact .inl ⟨rfl, (Host.Outcome.next.inj h).symm⟩
  | true =>
    cases hs : step s with
    | next u => exact .inr ⟨u, rfl, runFor_succ he hs ▸ h⟩
    | fault f => simp [runFor, he, hs] at h
    | refused r => simp [runFor, he, hs] at h

theorem runFor_appends {fuel : Nat} {s t : State} (h : runFor fuel s = .next t) : AppendsAtMost fuel s t := by
  induction fuel generalizing s with
  | zero => exact .of_out_eq 0 (congrArg State.out (Host.Outcome.next.inj h).symm)
  | succ fuel ih =>
    rcases runFor_succ_next_cases h with ⟨-, rfl⟩ | ⟨u, hstep, hrun⟩
    · exact .of_out_eq _ rfl
    · exact (step_appends hstep).trans (ih hrun)

/-- Settles O31: a step appends at most one code, so a run appends at most one per step, by induction on its fuel. -/
theorem outputStreamIsAppendOnly : Obligations.OutputStreamIsAppendOnly :=
  ⟨fun _ _ _ h => runFor_appends h, fun _ => rfl⟩

/-! ### The configuration -/

theorem endStep_config (s : State) : s.endStep.config = s.config := by
  cases hf : s.fault with
  | some f => rw [endStep_of_fault hf]
  | none => rcases endStep_cases hf with ⟨-, heq⟩ | ⟨-, heq⟩ <;> rw [heq] <;> rfl

theorem step_config {s t : State} (h : step s = .next t) : t.config = s.config := by
  obtain ⟨a, b, c, -, ⟨-, rfl⟩ | ⟨-, rfl⟩⟩ := step_next_cases h
  · exact State.raise_config ..
  · exact endStep_config (afterSubleq s.beginStep a b c)

theorem loadImage_config (img : Image) (s : State) : (loadImage img s).config = s.config := by
  rcases loadImage_cases img s with ⟨-, hx⟩ | ⟨-, -, hx⟩ | ⟨-, -, j, -, hx⟩ | ⟨-, -, -, hx⟩ <;> rw [hx] <;> rfl

/-- The next states of a load: only in phase Reset, and what the loader leaves. -/
theorem load_next {img : Image} {s t : State} (h : load img s = .next t) : s.phase = .reset ∧ t = loadImage img s := by
  rcases load_cases img s with ⟨-, hx⟩ | ⟨-, -, hx⟩ | ⟨hp, -, hx⟩ <;> rw [hx] at h
  · cases h
  · cases h
  · exact ⟨hp, (Host.Outcome.next.inj h).symm⟩

/-- The next states of a fill: only in phase Reset, for one value per cell. -/
theorem fill_next {values : List Int} {s t : State} (h : fill values s = .next t) :
    s.phase = .reset ∧ values.length = s.n ∧ t = (s.setMem (s.mem.writeFrom 0 values)).setPhase .loaded := by
  rcases fill_cases values s with ⟨-, hx⟩ | ⟨-, -, hx⟩ | ⟨hp, hl, hx⟩ <;> rw [hx] at h
  · cases h
  · cases h
  · exact ⟨hp, hl, (Host.Outcome.next.inj h).symm⟩

theorem load_config {img : Image} {s t : State} (h : load img s = .next t) : t.config = s.config := by
  obtain ⟨-, rfl⟩ := load_next h
  exact loadImage_config img s

theorem fill_config {values : List Int} {s t : State} (h : fill values s = .next t) : t.config = s.config := by
  obtain ⟨-, -, rfl⟩ := fill_next h
  rfl

/-- Settles O39: each of the four answers is made of updates that keep the configuration. -/
theorem configurationIsReadOnly : Obligations.ConfigurationIsReadOnly :=
  fun _ _ => ⟨step_config, fun _ => load_config, fun _ => fill_config, rfl⟩

/-! ### The invariant along a load and a fill -/

/-- In phase Reset no flag is set (R140). -/
theorem flags_of_reset {s : State} (hs : s.Inv) (hp : s.phase = .reset) : s.halted = false ∧ s.fault = none := by
  have hagree := hs.phase
  unfold State.phaseAgrees at hagree
  rw [hp] at hagree
  cases hf : s.fault with
  | none => cases hh : s.halted <;> simp [hf, hh] at hagree ⊢
  | some f => cases hh : s.halted <;> cases f <;> simp [hf, hh] at hagree

/-- What a host's action may write in phase Reset: a memory of `N` cells, and a fault status that agrees with the phase it leads to. -/
theorem hostAction_inv {s : State} {m : Memory} {f : Option FaultInfo} {p : Phase} (hs : s.Inv) (hreset : s.phase = .reset)
    (hm : m.wf = true ∧ m.within s.n = true) (hp : p ≠ .reset)
    (hagree : (((s.setMem m).setFault f).setPhase p).phaseAgrees = true) :
    (((s.setMem m).setFault f).setPhase p).Inv where
  config := hs.config
  mem := hm
  pc := hs.pc
  codes := hs.codes
  phase := hagree
  halted := fun hh => absurd hh (by simp [(flags_of_reset hs hreset).1])
  unstarted := fun _ => hs.unstarted (.inl hreset)
  reset := fun h => absurd h hp

/-- A load or fill that succeeds: memory is written and the phase is Loaded. -/
theorem loaded_inv {s : State} {m : Memory} (hs : s.Inv) (hreset : s.phase = .reset)
    (hm : m.wf = true ∧ m.within s.n = true) : ((s.setMem m).setPhase .loaded).Inv := by
  obtain ⟨hh, hf⟩ := flags_of_reset hs hreset
  exact hostAction_inv (f := s.fault) hs hreset hm (by decide) (by simp [State.phaseAgrees, hh, hf])

/-- A load that fails (R151), whatever memory it leaves. -/
theorem loadFailed_inv {s : State} {m : Memory} {f : FaultInfo} (hs : s.Inv) (hreset : s.phase = .reset)
    (hm : m.wf = true ∧ m.within s.n = true) (hf : f.entryPhase = .loadFailed) : ((s.setMem m).raise f).Inv := by
  obtain ⟨hh, -⟩ := flags_of_reset hs hreset
  exact hostAction_inv hs hreset hm (by simp [hf]) (by simp [State.phaseAgrees, hh])

theorem loadImage_inv {img : Image} {s : State} (hs : s.Inv) (hreset : s.phase = .reset) : (loadImage img s).Inv := by
  rcases loadImage_cases img s with ⟨-, hx⟩ | ⟨-, -, hx⟩ | ⟨-, -, j, -, hx⟩ | ⟨-, hfit, -, hx⟩ <;> rw [hx]
  · exact loadFailed_inv hs hreset hs.mem rfl
  · exact loadFailed_inv hs hreset hs.mem rfl
  · exact loadFailed_inv hs hreset ⟨memoryAfterBadData_wf .., memoryAfterBadData_within ..⟩ rfl
  · exact loaded_inv hs hreset ⟨placeImage_wf _ _ hs.mem.1, placeImage_within hs.mem.2 hfit⟩

theorem load_inv {img : Image} {s t : State} (hs : s.Inv) (h : load img s = .next t) : t.Inv := by
  obtain ⟨hreset, rfl⟩ := load_next h
  exact loadImage_inv hs hreset

theorem fill_inv {values : List Int} {s t : State} (hs : s.Inv) (h : fill values s = .next t) : t.Inv := by
  obtain ⟨hreset, hlen, rfl⟩ := fill_next h
  exact loaded_inv hs hreset
    ⟨Memory.writeFrom_wf _ _ hs.mem.1, Memory.writeFrom_within hs.mem.2 (by rw [Nat.zero_add, hlen])⟩

/-- Settles O52: each answer of the loader writes a memory of `N` cells and a fault status that agrees with its phase. -/
theorem loadAndFillKeepTheInvariant : Obligations.LoadAndFillKeepTheInvariant :=
  fun _ _ hs => ⟨fun _ => load_inv hs, fun _ => fill_inv hs⟩

end Sys2Proof.Machine
end

section
/-!
PROOFS of the memory family: the resolution of signed addresses (O7), the one-cell read and write (O8, O9, O10), fetch (O11), and that an
enabled step of the block always answers a next state (O25).
-/

namespace Sys2Proof.Machine

/-! ### Resolve -/

/-- A negative address in range resolves above cell 0 and below `N` (R41). -/
theorem resolve_bounds_of_neg {n : Nat} {x : Int} (h : x < 0) (hx : -(n : Int) < x) : 1 ≤ resolve n x ∧ resolve n x < n := by
  have hval := resolve_of_neg h hx
  omega

/-- The one negative address of cell `k` is `k - N`. -/
theorem resolve_eq_iff_of_neg {n : Nat} {x : Int} (h : x < 0) (hx : -(n : Int) < x) (k : Nat) :
    resolve n x = k ↔ x = (k : Int) - n := by
  have hval := resolve_of_neg h hx
  omega

/-- Resolve is a bijection from the negative addresses onto cells 1 to `N-1` (R41). -/
theorem existsUnique_neg_resolve_eq {n k : Nat} (h1 : 1 ≤ k) (hk : k < n) :
    ∃! x : Int, (-(n : Int) < x ∧ x < 0) ∧ resolve n x = k := by
  have hlo : -(n : Int) < (k : Int) - n := by omega
  have hneg : (k : Int) - n < 0 := by omega
  refine ⟨(k : Int) - n, ⟨⟨hlo, hneg⟩, (resolve_eq_iff_of_neg hneg hlo k).2 rfl⟩, ?_⟩
  rintro y ⟨⟨hy, hy0⟩, hres⟩
  exact (resolve_eq_iff_of_neg hy0 hy k).1 hres

theorem resolve_neg_one {n : Nat} (h : 2 ≤ n) : resolve n (-1) = n - 1 :=
  (resolve_eq_iff_of_neg (by omega) (by omega) (n - 1)).2 (by omega)

/-- Settles O7: a negative `x` in range resolves to `x + N`, so the only negative address of cell `k` is `k - N`. -/
theorem resolveOfSignedAddresses : Obligations.ResolveOfSignedAddresses :=
  fun n =>
    ⟨fun _ h0 _ => resolve_of_nonneg n h0,
     fun _ hx h0 => ⟨resolve_of_neg h0 hx, resolve_bounds_of_neg h0 hx⟩,
     fun _ => existsUnique_neg_resolve_eq,
     resolve_neg_one⟩

/-! ### Reading and writing through an address -/

theorem memRead_of_inRange {s : State} {x : Int} (h : inRange s.n x = true) :
    memRead s x = .ok (s.mem.read (resolve s.n x)) := if_pos h

theorem memWrite_of_inRange {s : State} {x : Int} (v : Int) (h : inRange s.n x = true) :
    memWrite s x v = .ok (s.setMem (s.mem.write (resolve s.n x) v)) := if_pos h

theorem memRead_eq_error_iff (s : State) (x : Int) : memRead s x = .error (.noSuchCell x) ↔ inRange s.n x = false := by
  rcases memRead_cases s x with ⟨hr, hx⟩ | ⟨hr, hx⟩ <;> simp [hr, hx]

theorem memWrite_eq_error_iff (s : State) (x v : Int) :
    memWrite s x v = .error (.noSuchCell x) ↔ inRange s.n x = false := by
  rcases memWrite_cases s x v with ⟨hr, hx⟩ | ⟨hr, hx⟩ <;> simp [hr, hx]

/-- Settles O8: the read and the write stop exactly where the range check fails. -/
theorem outOfRangeNamesNoCell : Obligations.OutOfRangeNamesNoCell :=
  fun s x v =>
    ⟨(memRead_eq_error_iff s x).trans (not_inRange_iff s.n x), (memWrite_eq_error_iff s x v).trans (not_inRange_iff s.n x)⟩

/-- Two addresses in range of the same cell read alike. -/
theorem memRead_congr {s : State} {x y : Int} (hx : inRange s.n x = true) (hy : inRange s.n y = true)
    (h : resolve s.n x = resolve s.n y) : memRead s x = memRead s y := by
  rw [memRead_of_inRange hx, memRead_of_inRange hy, h]

/-- The two addresses of the last cell (95_test_vectors.md L1-7). -/
theorem memRead_neg_one {s : State} (h : 2 ≤ s.n) : memRead s (-1) = memRead s ((s.n : Int) - 1) := by
  have hlast : (resolve s.n ((s.n : Int) - 1) : Int) = (s.n : Int) - 1 := resolve_of_nonneg s.n (by omega)
  refine memRead_congr ((inRange_iff ..).2 (by omega)) ((inRange_iff ..).2 (by omega)) ?_
  rw [resolve_neg_one h]
  omega

/-- Settles O9: `-1` and `N-1` are addresses of the same cell. -/
theorem memReadAnswersTheCell : Obligations.MemReadAnswersTheCell :=
  ⟨fun _ _ hlo hhi => memRead_of_inRange ((inRange_iff ..).2 ⟨hlo, hhi⟩), fun _ => memRead_neg_one⟩

/-- Settles O10: the write in range is `Memory.write` at the resolved cell, of which a read sees the one new value. -/
theorem memWriteSetsOneCell : Obligations.MemWriteSetsOneCell := by
  intro s x v hwf hlo hhi
  have hread := Memory.read_write hwf (resolve s.n x) v
  refine ⟨_, memWrite_of_inRange v ((inRange_iff ..).2 ⟨hlo, hhi⟩), ?_, fun i hi => ?_, rfl⟩
  · exact (hread _).trans (if_pos rfl)
  · exact (hread i).trans (if_neg hi)

/-! ### Fetch and the step -/

/-- Settles O11: the invariant keeps `pc` below `N`. -/
theorem fetchAnswersTheWordAtPc : Obligations.FetchAnswersTheWordAtPc :=
  fun _ hs => fetch_of_lt hs.pc

/-- An enabled step stops only where `pc` names no cell. -/
theorem step_next_of_pc_lt {s : State} (he : s.enabled = true) (hpc : s.pc < s.n) : ∃ t, step s = .next t := by
  rcases step_cases s with ⟨hoff, -⟩ | ⟨-, hout, -⟩ | ⟨a, b, c, -, ⟨-, hx⟩ | ⟨-, hx⟩⟩
  · exact absurd (hoff.symm.trans he) Bool.false_ne_true
  · exact absurd hpc hout
  · exact ⟨_, hx⟩
  · exact ⟨_, hx⟩

/-- Settles O25: SegFault is a next state, and the invariant keeps `pc` below `N`. -/
theorem enabledStepAnswersNext : Obligations.EnabledStepAnswersNext :=
  fun _ hs he => step_next_of_pc_lt he hs.pc

end Sys2Proof.Machine
end

section
/-!
PROOFS of the encoding family: the decoder and the encoder (O1 to O5), what each operand field reaches (O6), and that every instruction
answers a next state (O16).
-/

namespace Sys2Proof

/-! ### Decode and encode -/

/-- THE DECODER'S ONE LAW (R61, R64): a triple is the decode of a word exactly where `b` and `c` are digits and the word is the triple's
encoding. -/
theorem decode_eq_iff (w a b c : Int) :
    decode w = .subleq a b c ↔ ((0 ≤ b ∧ b < INST_SZ) ∧ 0 ≤ c ∧ c < INST_SZ) ∧ w = encode (.subleq a b c) := by
  rw [decode_eq, Instr.subleq.injEq, encode_eq]
  unfold INST_SZ
  constructor
  · rintro ⟨rfl, rfl, rfl⟩
    omega
  · rintro ⟨⟨hb, hc⟩, rfl⟩
    omega

/-- The same law in decimal, as R63 writes it. -/
theorem decode_eq_iff_digits (w a b c : Int) :
    decode w = .subleq a b c ↔ ((0 ≤ b ∧ b < 128) ∧ 0 ≤ c ∧ c < 128) ∧ w = 16384 * a + 128 * b + c := by
  have hword : encode (.subleq a b c) = 16384 * a + 128 * b + c := by
    rw [encode_eq]
    unfold INST_SZ
    omega
  rw [decode_eq_iff, hword]
  rfl

/-- Encoding undoes decoding, for every word. -/
theorem encode_decode (w : Int) : encode (decode w) = w := by
  cases hd : decode w with
  | subleq a b c => exact ((decode_eq_iff w a b c).1 hd).2.symm

theorem decode_injective : Function.Injective decode :=
  Function.LeftInverse.injective encode_decode

/-- Settles O3: the decoder's law at the word `encode (a, b, c)`. -/
theorem decodeInvertsEncodeOnDigits : Obligations.DecodeInvertsEncodeOnDigits :=
  ⟨encode_eq, fun a b c => (decode_eq_iff _ a b c).trans (and_iff_left rfl)⟩

/-- Settles O1: the ranges are those of digits, `a` is what two floor divisions leave, and `a` is decoded from `encode (a, 0, 0)`. -/
theorem decodedFieldRanges : Obligations.DecodedFieldRanges := by
  refine ⟨fun w a b c h => ?_, fun a => ⟨_, 0, 0, (decode_eq_iff _ a 0 0).2 ⟨by decide, rfl⟩⟩⟩
  obtain ⟨⟨hb, hc⟩, hw⟩ := (decode_eq_iff_digits w a b c).1 h
  rw [fdiv_eq w (by decide)]
  omega

/-- Settles O2: the word of a triple is `16384*a + 128*b + c`, and there is no other. -/
theorem decodeIsABijection : Obligations.DecodeIsABijection := by
  refine ⟨fun w a b c h => ((decode_eq_iff_digits w a b c).1 h).2, fun _ _ h => decode_injective h, ?_⟩
  intro a b c hb hb' hc hc'
  exact ⟨_, (decode_eq_iff_digits _ a b c).2 ⟨⟨⟨hb, hb'⟩, hc, hc'⟩, rfl⟩, fun w h => ((decode_eq_iff_digits w a b c).1 h).2⟩

/-! ### The bit view -/

/-- A bit slice in terms of Lean's own division (R13). -/
theorem bits_eq (hi lo : Nat) (w : Int) : bits hi lo w = w / 2 ^ lo % 2 ^ (hi - lo + 1) := by
  have hpow (k : Nat) : (0 : Int) ≤ 2 ^ k := Int.pow_nonneg (by decide)
  rw [bits, fdiv_eq _ (hpow lo), fmod_eq _ (hpow _)]

theorem shiftRight_eq_fdiv (w : Int) (k : Nat) : w >>> k = w.fdiv (2 ^ k) := by
  rw [fdiv_eq _ (Int.pow_nonneg (by decide)), Int.shiftRight_eq_div_pow]
  norm_cast

/-- Settles O4: slices and shift are division and remainder by powers of 2, of a word that is `16384*a + 128*b + c`. -/
theorem decodeIsTheBitView : Obligations.DecodeIsTheBitView := by
  intro w a b c h
  obtain ⟨⟨hb, hc⟩, hw⟩ := (decode_eq_iff_digits w a b c).1 h
  have ha : a = w.fdiv (2 ^ 14) := by
    rw [fdiv_eq w (by decide)]
    omega
  rw [bits_eq, bits_eq, shiftRight_eq_fdiv, ← ha]
  omega

/-- Settles O5: eleven fixed words, evaluated. -/
theorem decodeOfTheSpecsWords : Obligations.DecodeOfTheSpecsWords := by
  unfold Obligations.DecodeOfTheSpecsWords
  decide

end Sys2Proof

namespace Sys2Proof.Machine

/-! ### What the operand fields reach -/

/-- The addresses of cell `k`: `k` itself and, but for cell 0, `k - N` (R41, R42). -/
theorem names_cell_iff {n k : Nat} (hk : k < n) (x : Int) :
    (inRange n x = true ∧ resolve n x = k) ↔ x = k ∨ (1 ≤ k ∧ x = (k : Int) - n) := by
  rw [inRange_iff]
  rcases Int.lt_or_le x 0 with hneg | hpos
  · constructor
    · rintro ⟨⟨hlo, -⟩, hres⟩
      have := (resolve_eq_iff_of_neg hneg hlo k).1 hres
      omega
    · intro hx
      have hlo : -(n : Int) < x := by omega
      exact ⟨⟨hlo, by omega⟩, (resolve_eq_iff_of_neg hneg hlo k).2 (by omega)⟩
  · have hres := resolve_of_nonneg n hpos
    omega

theorem inRange_iff_of_nonneg (n : Nat) {x : Int} (h : 0 ≤ x) : inRange n x = true ↔ x < n := by
  rw [inRange_iff]
  omega

/-- A digit `b` reaches the last cell, the output register, exactly in a memory of at most 128 cells. -/
theorem exists_digit_names_last_iff {n : Nat} (hn : 2 ≤ n) :
    (∃ b : Int, (0 ≤ b ∧ b ≤ 127) ∧ inRange n b = true ∧ resolve n b = n - 1) ↔ n ≤ 128 := by
  have hnames := names_cell_iff (n := n) (k := n - 1) (by omega)
  constructor
  · rintro ⟨b, hb, hlast⟩
    have := (hnames b).1 hlast
    omega
  · intro h
    exact ⟨(n - 1 : Nat), by omega, (hnames _).2 (.inl rfl)⟩

/-- In a memory of more than 128 cells a digit `c` is its own jump target (R87). -/
theorem digit_fmod_of_large {n : Nat} (h : 128 < n) {c : Int} (hc : 0 ≤ c) (hc' : c ≤ 127) : c.fmod n = c :=
  Int.fmod_eq_of_lt hc (by omega)

/-- The digits `c` reach every cell exactly in a memory of at most 128 cells: in a larger one no digit reaches cell 128. -/
theorem digits_reach_every_cell_iff (n : Nat) :
    (∀ k : Nat, k < n → ∃ c : Int, (0 ≤ c ∧ c ≤ 127) ∧ c.fmod n = k) ↔ n ≤ 128 := by
  constructor
  · intro hall
    by_contra hn
    obtain ⟨c, ⟨hc, hc'⟩, hk⟩ := hall 128 (by omega)
    have := digit_fmod_of_large (by omega) hc hc' (n := n)
    omega
  · intro hn k hk
    exact ⟨k, by omega, Int.fmod_eq_of_lt (by omega) (by omega)⟩

/-- Settles O6: the addresses of a cell, the reach of the digits `b`, and the reach of the digits `c`. -/
theorem reachOfEachField : Obligations.ReachOfEachField := by
  intro n hn
  refine ⟨fun k h1 hk x => ?_, fun x => ?_, fun b hb _ => ⟨inRange_iff_of_nonneg n hb, fun _ => resolve_of_nonneg n hb⟩,
    exists_digit_names_last_iff hn, digits_reach_every_cell_iff n, fun h _ => digit_fmod_of_large h⟩
  · rw [names_cell_iff hk, and_iff_right h1]
  · rw [names_cell_iff (by omega)]
    omega

/-! ### Every instruction answers -/

/-- Settles O16: with both operands in range the instruction completes, else it takes SegFault, and both are next states (R126, log 4). -/
theorem everyInstructionAnswersNext : Obligations.EveryInstructionAnswersNext := by
  rintro ⟨a, b, c⟩ s
  rw [exec_subleq]
  rcases execSubleq_cases a b c s with ⟨-, hx⟩ | ⟨-, hx⟩
  · exact ⟨_, hx⟩
  · exact ⟨_, hx⟩

end Sys2Proof.Machine
end

section
/-!
PROOFS of the instruction family: what `subleq` does and leaves unchanged (O13, O14, O15, O17, O18), and the step that runs it (O19, O20,
O21, O23, O33).
-/

namespace Sys2Proof.Machine

/-! ### The state after the write and the jump -/

section AfterSubleq

variable {s : State} (a b c : Int)

/-- Everything a read sees of the instruction (R86): the difference in cell `Resolve(a)`, the old value elsewhere. -/
theorem afterSubleq_read (hm : s.mem.wf = true) (k : Nat) :
    (afterSubleq s a b c).mem.read k = if k = resolve s.n a then difference s a b else s.mem.read k :=
  Memory.read_write hm ..

theorem afterSubleq_read_dest (hm : s.mem.wf = true) :
    (afterSubleq s a b c).mem.read (resolve s.n a) = difference s a b :=
  (afterSubleq_read a b c hm _).trans (if_pos rfl)

theorem afterSubleq_read_of_ne (hm : s.mem.wf = true) {k : Nat} (hk : k ≠ resolve s.n a) :
    (afterSubleq s a b c).mem.read k = s.mem.read k :=
  (afterSubleq_read a b c hm k).trans (if_neg hk)

end AfterSubleq

section Branches

variable {s : State} {a b : Int} (c : Int)

/-- A non-positive result takes the branch (R87). -/
theorem afterSubleq_pc_of_nonpos (ha : inRange s.n a = true) (hd : difference s a b ≤ 0) :
    ((afterSubleq s a b c).pc : Int) = c.fmod s.n := by
  rw [afterSubleq_pc b c ha, if_pos hd]

/-- A positive result falls through (R87). -/
theorem afterSubleq_pc_of_pos (ha : inRange s.n a = true) (hd : 0 < difference s a b) :
    ((afterSubleq s a b c).pc : Int) = ((s.pc : Int) + 1).fmod s.n := by
  rw [afterSubleq_pc b c ha, if_neg (by omega)]

/-- Two addresses of one cell have difference 0 (R89). -/
theorem difference_eq_zero (h : resolve s.n a = resolve s.n b) : difference s a b = 0 := by
  rw [difference, h, Int.sub_self]

end Branches

/-- The bounds the statements write out are the range check. -/
theorem inRange_of_bounds {n : Nat} {x : Int} (hlo : -(n : Int) < x) (hhi : x < n) : inRange n x = true :=
  (inRange_iff ..).2 ⟨hlo, hhi⟩

/-- Where the two range checks fail together (R83), in the bounds the statements write out. -/
theorem not_both_inRange_iff (n : Nat) (a b : Int) :
    ¬ (inRange n a = true ∧ inRange n b = true) ↔ a ≤ -(n : Int) ∨ (n : Int) ≤ a ∨ b ≤ -(n : Int) ∨ (n : Int) ≤ b := by
  rw [inRange_iff, inRange_iff]
  omega

/-! ### The instruction -/

/-- Settles O13: in range the answer is `afterSubleq`, whose memory is one write and whose `pc` is one jump. -/
theorem subleqCompletes : Obligations.SubleqCompletes := by
  intro s a b c hm ha ha' hb hb'
  have hina := inRange_of_bounds ha ha'
  refine ⟨_, execSubleq_of_inRange c hina (inRange_of_bounds hb hb'), afterSubleq_read_dest a b c hm,
    fun _ => afterSubleq_read_of_ne a b c hm, ?_, rfl, rfl, rfl, rfl, rfl⟩
  rw [afterSubleq_read_dest a b c hm, afterSubleq_pc b c hina]

/-- Settles O14: out of range the answer is the entry of R126. -/
theorem subleqTakesSegFault : Obligations.SubleqTakesSegFault :=
  fun s a b c h => execSubleq_of_not_inRange c ((not_both_inRange_iff s.n a b).2 h)

/-- Settles O15: the frame of each of the two answers. -/
theorem subleqFrame : Obligations.SubleqFrame := by
  intro s t a b c hm h
  rw [exec_subleq] at h
  rcases execSubleq_cases a b c s with ⟨hr, hx⟩ | ⟨hr, hx⟩
  · obtain rfl := Host.Outcome.next.inj (hx.symm.trans h)
    exact ⟨rfl, rfl, rfl, fun _ => ⟨rfl, rfl, fun _ => afterSubleq_read_of_ne a b c hm⟩, fun hout => absurd hr hout⟩
  · obtain rfl := Host.Outcome.next.inj (hx.symm.trans h)
    exact ⟨rfl, rfl, rfl, fun hin => absurd hin hr, fun _ => ⟨rfl, fun _ => rfl⟩⟩

/-- The other address of cell `b` (R41, R89). -/
theorem resolve_sub_size {n : Nat} {b : Int} (h1 : 1 ≤ b) (hb : b ≤ (n : Int) - 1) :
    resolve n (b - n) = resolve n b ∧ inRange n (b - n) = true := by
  have hpos := resolve_of_nonneg n (show 0 ≤ b by omega)
  have hneg := resolve_of_neg (show b - n < 0 by omega) (show -(n : Int) < b - n by omega)
  exact ⟨by omega, inRange_of_bounds (by omega) (by omega)⟩

/-- Settles O17: the difference of a cell with itself is 0, which takes the branch. -/
theorem sameCellClearsAndBranches : Obligations.SameCellClearsAndBranches := by
  refine ⟨fun s a b c hm ha ha' hb hb' hsame => ?_, fun n b h1 hb _ => resolve_sub_size h1 hb⟩
  have hina := inRange_of_bounds ha ha'
  have hzero := difference_eq_zero hsame
  exact ⟨_, execSubleq_of_inRange c hina (inRange_of_bounds hb hb'), (afterSubleq_read_dest a b c hm).trans hzero,
    afterSubleq_pc_of_nonpos c hina hzero.le⟩

/-- Settles O18: the target is `N` where the last cell falls through, and `fmod(N, N)` is 0. -/
theorem sequentialAndBranchWrap : Obligations.SequentialAndBranchWrap := by
  intro s a b c hm ha ha' hb hb'
  have hina := inRange_of_bounds ha ha'
  have hself : (s.n : Int).fmod s.n = 0 := Int.fmod_self
  refine ⟨_, execSubleq_of_inRange c hina (inRange_of_bounds hb hb'), fun hlast hpos => ?_, fun _ hnonpos => ?_⟩
  · rw [afterSubleq_read_dest a b c hm] at hpos
    have hpc := afterSubleq_pc_of_pos c hina hpos
    have htop : (s.pc : Int) + 1 = s.n := by omega
    exact Int.natCast_eq_zero.1 (hpc.trans (by rw [htop, hself]))
  · rw [afterSubleq_read_dest a b c hm] at hnonpos
    have hpc := afterSubleq_pc_of_nonpos c hina hnonpos
    exact ⟨hpc, fun hc => Int.natCast_eq_zero.1 (hpc.trans (by rw [hc, hself]))⟩

/-! ### The end of a step -/

/-- Output monitor and halt detection leave memory, `pc` and the fault status (R100, R107). -/
theorem endStep_mem_pc_fault (s : State) : s.endStep.mem = s.mem ∧ s.endStep.pc = s.pc ∧ s.endStep.fault = s.fault := by
  cases hf : s.fault with
  | some f => rw [endStep_of_fault hf, hf]; exact ⟨rfl, rfl, rfl⟩
  | none => rcases endStep_cases hf with ⟨-, heq⟩ | ⟨-, heq⟩ <;> rw [heq] <;> exact ⟨rfl, rfl, hf⟩

@[simp] theorem endStep_mem (s : State) : s.endStep.mem = s.mem := (endStep_mem_pc_fault s).1
@[simp] theorem endStep_pc (s : State) : s.endStep.pc = s.pc := (endStep_mem_pc_fault s).2.1
@[simp] theorem endStep_fault (s : State) : s.endStep.fault = s.fault := (endStep_mem_pc_fault s).2.2

/-- A completed step appends what the monitor emits (R101). -/
theorem endStep_out {s : State} (hf : s.fault = none) : s.endStep.out = s.out ++ emitted s := by
  rcases endStep_cases hf with ⟨-, heq⟩ | ⟨-, heq⟩ <;> rw [heq] <;> rfl

/-- A completed step of a block that runs sets the halted flag exactly at the halt condition (R107). -/
theorem endStep_halted_iff {s : State} (hf : s.fault = none) (hh : s.halted = false) :
    s.endStep.halted = true ↔ s.pc = 0 ∧ s.mem.read 0 = 0 := by
  rcases endStep_cases hf with ⟨hhalt, heq⟩ | ⟨hgo, heq⟩
  · simp [heq, hhalt]
  · simp [heq, hh, hgo]

/-- At the halt condition a completed step ends halted, flag and phase together (R30, R107). -/
theorem endStep_of_haltCondition {s : State} (hf : s.fault = none) (hhalt : s.pc = 0 ∧ s.mem.read 0 = 0) :
    s.endStep.halted = true ∧ s.endStep.phase = .halted := by
  rcases endStep_cases hf with ⟨-, heq⟩ | ⟨hgo, -⟩
  · rw [heq]
    exact ⟨rfl, rfl⟩
  · exact absurd hhalt hgo

/-! ### The step -/

section Step

variable {s : State} {a b c : Int}

theorem Fetched.halted (h : Fetched s a b c) : s.halted = false := ((State.enabled_iff s).1 h.enabled).2.1

theorem Fetched.fault (h : Fetched s a b c) : s.fault = none := ((State.enabled_iff s).1 h.enabled).2.2

/-- A decoded `b` is a digit (R62). -/
theorem Fetched.b_nonneg (h : Fetched s a b c) : 0 ≤ b := by
  obtain ⟨⟨⟨hb, -⟩, -⟩, -⟩ := (decode_eq_iff _ a b c).1 h.word
  exact hb

/-- A step in range: the write, the jump, the end of the step (R96). -/
theorem step_of_inRange (h : Fetched s a b c) (hr : inRange s.n a = true ∧ inRange s.n b = true) :
    step s = .next (afterSubleq s.beginStep a b c).endStep := by
  rw [step_of_fetched h, execSubleq_of_inRange (s := s.beginStep) c hr.1 hr.2]
  rfl

/-- A step out of range takes SegFault and does nothing else (R126). -/
theorem step_of_not_inRange (h : Fetched s a b c) (hr : ¬ (inRange s.n a = true ∧ inRange s.n b = true)) :
    step s = .next (s.raise (.segFault s.pc (s.mem.read s.pc) a b)) := by
  rw [step_of_fetched h, execSubleq_of_not_inRange (s := s.beginStep) c hr, finishStep,
    endStep_of_fault (State.raise_fault ..)]
  rfl

/-- Everything a read sees of a completed step: the difference in cell `Resolve(a)`, the old value elsewhere. -/
theorem completedStep_read (hm : s.mem.wf = true) (k : Nat) :
    (afterSubleq s.beginStep a b c).endStep.mem.read k = if k = resolve s.n a then difference s a b else s.mem.read k := by
  rw [endStep_mem]
  exact afterSubleq_read (s := s.beginStep) a b c hm k

theorem completedStep_read_dest (hm : s.mem.wf = true) :
    (afterSubleq s.beginStep a b c).endStep.mem.read (resolve s.n a) = difference s a b :=
  (completedStep_read hm _).trans (if_pos rfl)

/-- Where a completed step goes (R87): the end of the step does not move `pc`. -/
theorem completedStep_pc (ha : inRange s.n a = true) :
    ((afterSubleq s.beginStep a b c).endStep.pc : Int) = (if difference s a b ≤ 0 then c else (s.pc : Int) + 1).fmod s.n := by
  rw [endStep_pc]
  exact afterSubleq_pc (s := s.beginStep) b c ha

end Step

/-- Fetch at any cell, whatever `pc` was before. -/
theorem fetch_at {s : State} {p : Nat} (hp : p < s.n) : fetch { s with pc := p } = .ok (s.mem.read p) :=
  fetch_of_lt (s := { s with pc := p }) hp

/-- Settles O19: the decoded instruction is a `subleq`, and `step` runs it in phase Running. -/
theorem stepRunsTheDecodedInstruction : Obligations.StepRunsTheDecodedInstruction := by
  intro s he hp
  cases hw : decode (s.mem.read s.pc) with
  | subleq a b c => exact step_of_fetched ⟨he, hp, hw⟩

/-- Settles O20: in range each stage changes its own fields of `afterSubleq`, out of range the step is the entry of R126. -/
theorem stepFollowsTheWholeStepRule : Obligations.StepFollowsTheWholeStepRule := by
  intro s a b c hm hf
  refine ⟨fun hr => ?_, step_of_not_inRange hf⟩
  have hnofault : (afterSubleq s.beginStep a b c).fault = none := hf.fault
  refine ⟨_, step_of_inRange hf hr, completedStep_read_dest hm, fun i hi => (completedStep_read hm i).trans (if_neg hi),
    ?_, ?_, ?_, ?_, ?_⟩
  · rw [completedStep_read_dest hm]
    exact completedStep_pc hr.1
  · rw [endStep_mem]
    exact endStep_out hnofault
  · rw [endStep_mem, endStep_pc]
    exact endStep_halted_iff hnofault hf.halted
  · rw [endStep_fault]
    exact hnofault
  · exact endStep_config (afterSubleq s.beginStep a b c)

/-- Settles O21: the step answers by the range check, in which a digit `b` cannot be too low. -/
theorem segFaultExactlyOutOfRange : Obligations.SegFaultExactlyOutOfRange := by
  intro s a b c hf
  have hb := hf.b_nonneg
  have hout := not_both_inRange_iff s.n a b
  by_cases hr : inRange s.n a = true ∧ inRange s.n b = true
  · refine ⟨_, step_of_inRange hf hr, ?_⟩
    rw [if_neg (fun h => hout.2 (by omega) hr), endStep_fault]
    exact hf.fault
  · refine ⟨_, step_of_not_inRange hf hr, ?_⟩
    have := hout.1 hr
    rw [if_pos (by omega), State.raise_fault]

/-- Settles O23: the jump takes the triple of the old word, and fetch reads the written memory. -/
theorem oldDecodeCompletesNewWordIsFetched : Obligations.OldDecodeCompletesNewWordIsFetched := by
  intro s a b c hm hf ha hb
  refine ⟨_, step_of_inRange hf ⟨ha, hb⟩, completedStep_pc ha, fun p hp => ?_⟩
  have hn : (afterSubleq s.beginStep a b c).endStep.n = s.n := congrArg Config.n (endStep_config _)
  rw [fetch_at (hn ▸ hp), completedStep_read hm, difference]

/-- Settles O33: the step clears cell 0 and branches to 0, which is the halt condition. -/
theorem clearingCellZeroAndJumpingThereHalts : Obligations.ClearingCellZeroAndJumpingThereHalts := by
  intro s c hm hf hc
  have hpc := hf.pc
  have hin : inRange s.n 0 = true := inRange_of_bounds (by omega) (by omega)
  have hzero : difference s.beginStep 0 0 = 0 := difference_eq_zero rfl
  have hhalt : (afterSubleq s.beginStep 0 0 c).pc = 0 ∧ (afterSubleq s.beginStep 0 0 c).mem.read 0 = 0 :=
    ⟨Int.natCast_eq_zero.1 ((afterSubleq_pc_of_nonpos (s := s.beginStep) c hin hzero.le).trans hc),
     (afterSubleq_read_dest (s := s.beginStep) 0 0 c hm).trans hzero⟩
  obtain ⟨hflag, hphase⟩ := endStep_of_haltCondition (s := afterSubleq s.beginStep 0 0 c) hf.fault hhalt
  refine ⟨_, step_of_inRange hf ⟨hin, hin⟩, hflag, hphase, ?_⟩
  rw [endStep_pc, endStep_mem]
  exact hhalt

end Sys2Proof.Machine
end

section
/-!
PROOFS of the output and halt family: what a completed step emits (O29, O30), when it halts (O32, O34), and how runs compose and end
(O36, O37).
-/

namespace Sys2Proof.Machine

/-! ### The output monitor -/

theorem emitted_of_pos {s : State} (h : 0 < s.mem.read (s.n - 1)) : emitted s = [outputCode (s.mem.read (s.n - 1))] := if_pos h

theorem emitted_of_nonpos {s : State} (h : s.mem.read (s.n - 1) ≤ 0) : emitted s = [] := if_neg (by omega)

/-- The monitor looks at memory alone (R100). -/
theorem emitted_congr {s t : State} (hm : t.mem = s.mem) (hc : t.config = s.config) : emitted t = emitted s := by
  unfold emitted
  rw [hm, State.n, hc]

theorem outputCode_le (v : Int) : outputCode v ≤ 126 := by
  have hlt : (outputCode v : Int) < 127 := outputCode_eq v ▸ fmod_lt v OUT_MOD_pos
  omega

/-- Settles O29: the monitor appends the emitted codes, which are the one code where the register is positive and none elsewhere. -/
theorem monitorEmitsOnlyPositiveValues : Obligations.MonitorEmitsOnlyPositiveValues := by
  refine fun s => ⟨fun hpos => ⟨_, outputCode_eq _, outputCode_le _, ?_⟩, fun hnonpos => ?_⟩
  · rw [monitor_eq, emitted_of_pos hpos]
    rfl
  · rw [monitor_eq, emitted_of_nonpos hnonpos, List.append_nil]
    rfl

/-! ### What a step leaves in the flags and the output stream -/

theorem enabled_of_step {s t : State} (h : step s = .next t) : s.enabled = true := by
  obtain ⟨a, b, c, hf, -⟩ := step_next_cases h
  exact hf.enabled

/-- A step that raised no fault appends what the monitor emits in the state it leaves (R101). -/
theorem step_out_of_no_fault {s t : State} (h : step s = .next t) (hnone : t.fault = none) : t.out = s.out ++ emitted t := by
  obtain ⟨a, b, c, hf, ⟨-, rfl⟩ | ⟨-, rfl⟩⟩ := step_next_cases h
  · rw [State.raise_fault] at hnone
    cases hnone
  · rw [endStep_out (s := afterSubleq s.beginStep a b c) hf.fault, emitted_congr (endStep_mem _) (endStep_config _)]
    rfl

/-- Settles O32: SegFault leaves the flag clear and sets the fault; a completed step ends with halt detection, which is the only stage that
sets the flag. -/
theorem haltedExactlyAtTheCondition : Obligations.HaltedExactlyAtTheCondition := by
  intro s t h
  obtain ⟨a, b, c, hf, ⟨-, rfl⟩ | ⟨-, rfl⟩⟩ := step_next_cases h
  · simp [hf.halted]
  · have hnone : (afterSubleq s.beginStep a b c).fault = none := hf.fault
    rw [endStep_halted_iff hnone hf.halted, endStep_fault, endStep_pc, endStep_mem]
    exact ⟨fun hhalt => ⟨hnone, hhalt⟩, And.right⟩

/-! ### The step from `pc = 0` and `mem[0] = 0` -/

/-- Writing back what a cell holds changes nothing, since canonical memory is extensional. -/
theorem Memory.write_read_self {m : Memory} (hm : m.wf = true) (i : Nat) : m.write i (m.read i) = m := by
  refine canonicalMemoryIsExtensional _ _ (Memory.write_wf i _ hm) hm fun k => ?_
  rw [Memory.read_write hm]
  split_ifs with hk
  · rw [hk]
  · rfl

/-- `subleq 0 0 0` on a cell 0 that holds 0 leaves memory as it is and jumps to 0 (R110). -/
theorem afterSubleq_zero_fixed {s : State} (hm : s.mem.wf = true) (hn : 0 < s.n) (h0 : s.mem.read 0 = 0) :
    (afterSubleq s 0 0 0).mem = s.mem ∧ (afterSubleq s 0 0 0).pc = 0 := by
  have hzero : difference s 0 0 = 0 := difference_eq_zero rfl
  have hin : inRange s.n 0 = true := inRange_of_bounds (by omega) (by omega)
  constructor
  · calc (afterSubleq s 0 0 0).mem = s.mem.write 0 (difference s 0 0) := rfl
      _ = s.mem.write 0 (s.mem.read 0) := by rw [hzero, h0]
      _ = s.mem := Memory.write_read_self hm 0
  · have hpc := afterSubleq_pc_of_nonpos 0 hin hzero.le
    rw [Int.zero_fmod] at hpc
    exact Int.natCast_eq_zero.1 hpc

/-- Settles O34: the word 0 is `subleq 0 0 0`, which changes nothing here, so the step ends at the halt condition with the output register
as it was. -/
theorem haltConditionIsNotTestedFirst : Obligations.HaltConditionIsNotTestedFirst := by
  intro s hm he hn hpc h0
  have hf : Fetched s 0 0 0 := ⟨he, hpc ▸ hn, by rw [hpc, h0]; exact decodeOfTheSpecsWords.1⟩
  have hin : inRange s.n 0 = true := inRange_of_bounds (by omega) (by omega)
  obtain ⟨hmem, hpc'⟩ := afterSubleq_zero_fixed (s := s.beginStep) hm hn h0
  have hnone : (afterSubleq s.beginStep 0 0 0).fault = none := hf.fault
  obtain ⟨hhalted, hphase⟩ := endStep_of_haltCondition hnone ⟨hpc', by rw [hmem]; exact h0⟩
  refine ⟨_, step_of_inRange hf ⟨hin, hin⟩, (endStep_mem _).trans hmem, (endStep_pc _).trans hpc', hhalted, hphase, ?_⟩
  rw [endStep_out hnone, emitted_congr hmem rfl]
  rfl

/-! ### Runs -/

theorem runFor_add {j : Nat} (k : Nat) {s t : State} (h : runFor j s = .next t) : runFor (j + k) s = runFor k t := by
  induction j generalizing s with
  | zero => rw [Nat.zero_add, Host.Outcome.next.inj h]
  | succ j ih =>
    rcases runFor_succ_next_cases h with ⟨hoff, rfl⟩ | ⟨u, hstep, hrun⟩
    · rw [runFor_of_not_enabled _ hoff, runFor_of_not_enabled _ hoff]
    · rw [Nat.succ_add, runFor_succ (enabled_of_step hstep) hstep, ih hrun]

/-- Settles O36: by induction on the first part of the run. -/
theorem runLoopComposes : Obligations.RunLoopComposes :=
  fun _ k _ _ h => runFor_add k h

/-- One step more at the end of a run. -/
theorem runFor_succ_end {k : Nat} {s u t : State} (hrun : runFor k s = .next u) (hstep : step u = .next t) :
    runFor (k + 1) s = .next t := by
  rw [runFor_add 1 hrun, runFor_succ (enabled_of_step hstep) hstep, runFor]

/-- What every step keeps, a run keeps. -/
theorem runFor_keeps {P : State → Prop} (hP : ∀ u t, P u → step u = .next t → P t) {fuel : Nat} {s t : State} (hs : P s)
    (h : runFor fuel s = .next t) : P t := by
  induction fuel generalizing s with
  | zero => exact Host.Outcome.next.inj h ▸ hs
  | succ fuel ih =>
    rcases runFor_succ_next_cases h with ⟨-, rfl⟩ | ⟨u, hstep, hrun⟩
    · exact hs
    · exact ih (hP s u hs hstep) hrun

theorem runFor_config {fuel : Nat} {s t : State} (h : runFor fuel s = .next t) : t.config = s.config :=
  runFor_keeps (P := fun u => u.config = s.config) (fun _ _ hu hstep => (step_config hstep).trans hu) rfl h

/-- Settles O30: by induction on the number of steps, each of which appends the code of the value it leaves in the output register. -/
theorem positiveRegisterEmitsEveryStep : Obligations.PositiveRegisterEmitsEveryStep := by
  intro k s v hv h
  induction k with
  | zero => exact ⟨s, rfl, (List.append_nil _).symm⟩
  | succ k ih =>
    obtain ⟨u, hrun, hout⟩ := ih fun j hj => h j (hj.trans k.lt_succ_self)
    obtain ⟨u', t, hrun', -, hstep, hnone, hreg⟩ := h k k.lt_succ_self
    obtain rfl : u = u' := Host.Outcome.next.inj (hrun.symm.trans hrun')
    have hrun_t := runFor_succ_end hrun hstep
    have hreg' : t.mem.read (t.n - 1) = v := by rw [State.n, runFor_config hrun_t]; exact hreg
    have hcode : emitted t = [outputCode v] := by rw [emitted_of_pos (hreg' ▸ hv), hreg']
    refine ⟨t, hrun_t, ?_⟩
    rw [step_out_of_no_fault hstep hnone, hcode, hout, List.append_assoc, List.replicate_succ']
    rfl

/-! ### How a run ends -/

/-- The three groups of phases (R30): no flag is set, the halted flag alone, or a fault alone. -/
theorem State.Inv.flags_cases {s : State} (hs : s.Inv) :
    (s.halted = false ∧ s.fault = none ∧ (s.phase = .reset ∨ s.phase = .loaded ∨ s.phase = .running)) ∨
    (s.halted = true ∧ s.fault = none ∧ s.phase = .halted) ∨
    ∃ f, s.halted = false ∧ s.fault = some f ∧ s.phase = f.entryPhase := by
  have hp := hs.phase
  unfold State.phaseAgrees at hp
  cases hf : s.fault with
  | none => cases hh : s.halted <;> simpa [hf, hh, or_assoc] using hp
  | some f =>
    cases hh : s.halted with
    | true => simp [hf, hh] at hp
    | false => simpa [hf, hh] using hp

/-- A halted block has the halted flag and no fault, and stands at the halt condition (R107, R114). -/
theorem State.Inv.of_phase_halted {s : State} (hs : s.Inv) (h : s.phase = .halted) :
    s.halted = true ∧ s.fault = none ∧ s.pc = 0 ∧ s.mem.read 0 = 0 := by
  rcases hs.flags_cases with ⟨-, -, hp⟩ | ⟨hh, hf, -⟩ | ⟨f, -, -, hp⟩
  · simp [h] at hp
  · exact ⟨hh, hf, hs.halted hh⟩
  · cases f <;> simp [h] at hp

/-- A loaded or running block has no flag set (R30). -/
theorem State.Inv.flags_of_phase {s : State} (hs : s.Inv) (h : s.phase = .loaded ∨ s.phase = .running) :
    s.halted = false ∧ s.fault = none := by
  rcases hs.flags_cases with ⟨hh, hf, -⟩ | ⟨-, -, hp⟩ | ⟨f, -, -, hp⟩
  · exact ⟨hh, hf⟩
  · simp [hp] at h
  · cases f <;> simp [hp] at h

/-- A state of a run: the invariant holds, and the block is loaded, runs, or has ended its run. -/
structure State.OnRun (s : State) : Prop where
  inv : s.Inv
  phase : s.phase = .loaded ∨ s.phase = .running ∨ s.phase = .halted ∨ s.phase = .faulted

theorem State.OnRun.of_enabled {s : State} (hs : s.Inv) (he : s.enabled = true) : s.OnRun where
  inv := hs
  phase := by
    obtain ⟨hp, -⟩ := (State.enabled_iff s).1 he
    exact hp.imp_right .inl

/-- The phases a step leads to (R30). -/
theorem step_phase {s t : State} (h : step s = .next t) : t.phase = .running ∨ t.phase = .halted ∨ t.phase = .faulted := by
  obtain ⟨a, b, c, hf, ⟨-, rfl⟩ | ⟨-, rfl⟩⟩ := step_next_cases h
  · exact .inr (.inr rfl)
  · rcases endStep_cases (s := afterSubleq s.beginStep a b c) hf.fault with ⟨-, heq⟩ | ⟨-, heq⟩ <;> rw [heq]
    · exact .inr (.inl rfl)
    · exact .inl rfl

theorem State.OnRun.of_step {s t : State} (hs : s.OnRun) (h : step s = .next t) : t.OnRun :=
  ⟨step_inv hs.inv h, .inr (step_phase h)⟩

theorem State.OnRun.of_runFor {s t : State} {fuel : Nat} (hs : s.OnRun) (h : runFor fuel s = .next t) : t.OnRun :=
  runFor_keeps (fun _ _ hu hstep => hu.of_step hstep) hs h

/-- A state of a run in which no step is enabled has halted or faulted: before its end no flag is set. -/
theorem State.OnRun.ended {s : State} (hs : s.OnRun) (he : s.enabled = false) : s.phase = .halted ∨ s.phase = .faulted := by
  rcases or_assoc.2 hs.phase with hp | hp
  · obtain ⟨hh, hf⟩ := hs.inv.flags_of_phase hp
    rw [(State.enabled_iff s).2 ⟨hp, hh, hf⟩] at he
    cases he
  · exact hp

theorem not_enabled_of_phase {s : State} (h : s.phase = .halted ∨ s.phase = .faulted) : s.enabled = false := by
  rcases h with hp | hp <;> simp [State.enabled, hp]

/-- From a state of the block every run answers a state. -/
theorem exists_runFor_next {s : State} (hs : s.Inv) (fuel : Nat) : ∃ t, runFor fuel s = .next t := by
  induction fuel generalizing s with
  | zero => exact ⟨s, rfl⟩
  | succ fuel ih =>
    cases he : s.enabled with
    | false => exact ⟨s, runFor_of_not_enabled _ he⟩
    | true =>
      obtain ⟨u, hstep⟩ := step_next_of_pc_lt he hs.pc
      rw [runFor_succ he hstep]
      exact ih (step_inv hs hstep)

/-- A run has one end: both runs, gone on for as long as the other, are the same run. -/
theorem runFor_end_unique {j k : Nat} {s t u : State} (ht : runFor j s = .next t) (hu : runFor k s = .next u)
    (ht' : t.enabled = false) (hu' : u.enabled = false) : t = u := by
  have hjk : runFor (j + k) s = .next t := (runFor_add k ht).trans (runFor_of_not_enabled k ht')
  have hkj : runFor (k + j) s = .next u := (runFor_add j hu).trans (runFor_of_not_enabled j hu')
  rw [Nat.add_comm k j, hjk] at hkj
  exact Host.Outcome.next.inj hkj

theorem not_haltsFrom_and_faultsFrom {s : State} : ¬ (HaltsFrom s ∧ FaultsFrom s) := by
  rintro ⟨⟨j, t, ht, htp⟩, k, u, hu, hup⟩
  have heq := runFor_end_unique ht hu (not_enabled_of_phase (.inl htp)) (not_enabled_of_phase (.inr hup))
  rw [heq, hup] at htp
  cases htp

theorem not_divergesFrom_of_end {fuel : Nat} {s t : State} (ht : runFor fuel s = .next t) (hoff : t.enabled = false) :
    ¬ DivergesFrom s := by
  intro hdiv
  obtain ⟨u, hu, he⟩ := hdiv fuel
  obtain rfl := Host.Outcome.next.inj (ht.symm.trans hu)
  exact Bool.false_ne_true (hoff.symm.trans he)

/-- A run goes on forever unless it halts or faults (R114). -/
theorem State.OnRun.not_divergesFrom_iff {s : State} (hs : s.OnRun) : ¬ DivergesFrom s ↔ HaltsFrom s ∨ FaultsFrom s := by
  constructor
  · intro hnot
    obtain ⟨fuel, hfuel⟩ := not_forall.1 hnot
    obtain ⟨t, ht⟩ := exists_runFor_next hs.inv fuel
    have hoff : t.enabled = false := Bool.eq_false_iff.2 fun he => hfuel ⟨t, ht, he⟩
    exact ((hs.of_runFor ht).ended hoff).imp (fun hp => ⟨fuel, t, ht, hp⟩) (fun hp => ⟨fuel, t, ht, hp⟩)
  · rintro (⟨fuel, t, ht, hp⟩ | ⟨fuel, t, ht, hp⟩)
    · exact not_divergesFrom_of_end ht (not_enabled_of_phase (.inl hp))
    · exact not_divergesFrom_of_end ht (not_enabled_of_phase (.inr hp))

/-- Settles O37: a run that does not go on forever stops in a state of the run where no step is enabled, which is halted or faulted; that
end is unique and meets the invariant. -/
theorem runEndsInExactlyOneWay : Obligations.RunEndsInExactlyOneWay := by
  intro s hs he
  have hrun := State.OnRun.of_enabled hs he
  refine ⟨?_, fun fuel t ht hp => (hrun.of_runFor ht).inv.of_phase_halted hp⟩
  have hone := not_haltsFrom_and_faultsFrom (s := s)
  have hends := hrun.not_divergesFrom_iff
  tauto

end Sys2Proof.Machine
end

section
/-!
PROOFS of the exceptions family: SegFault and what follows it (O22), the observer's views (O40), the report (O41), ConfigError (O42) and the
FormatError of a load without text (O45).
-/

namespace Sys2Proof.Machine

/-! ### The observer's views -/

/-- No step, no view (R112, R127). -/
theorem stepViews_of_not_enabled (fuel : Nat) {s : State} (h : s.enabled = false) : stepViews fuel s = [] := by
  cases fuel <;> simp [stepViews, h]

theorem stepViews_succ {fuel : Nat} {s t : State} (hs : step s = .next t) :
    stepViews (fuel + 1) s = observe s :: stepViews fuel t := by
  simp [stepViews, enabled_of_step hs, hs]

/-- Where a step is enabled the observer is called with the state as it stands, whatever the step then answers. -/
theorem stepViews_head {fuel : Nat} {s : State} (h : s.enabled = true) : (stepViews (fuel + 1) s)[0]? = some (observe s) := by
  cases hs : step s <;> simp [stepViews, h, hs]

theorem stepViews_getElem? {j fuel : Nat} {s u : State} (hj : j < fuel) (hrun : runFor j s = .next u) (hu : u.enabled = true) :
    (stepViews fuel s)[j]? = some (observe u) := by
  induction j generalizing fuel s with
  | zero =>
    obtain ⟨fuel, rfl⟩ := Nat.exists_eq_succ_of_ne_zero hj.ne'
    obtain rfl := Host.Outcome.next.inj hrun
    exact stepViews_head hu
  | succ j ih =>
    obtain ⟨fuel, rfl⟩ := Nat.exists_eq_succ_of_ne_zero (Nat.zero_lt_of_lt hj).ne'
    rcases runFor_succ_next_cases hrun with ⟨hoff, rfl⟩ | ⟨t, hstep, hrun⟩
    · exact absurd (hoff.symm.trans hu) Bool.false_ne_true
    · rw [stepViews_succ hstep, List.getElem?_cons_succ]
      exact ih (Nat.lt_of_succ_lt_succ hj) hrun

/-- Settles O40: by induction on `j`; the first view is of the state itself, a later one is a view of the run from the next state. -/
theorem observerSeesTheStateBeforeEachStep : Obligations.ObserverSeesTheStateBeforeEachStep :=
  fun _ _ _ _ hj hrun hu => stepViews_getElem? hj hrun hu

/-! ### The report -/

theorem State.report_eq_fault_iff (s : State) (f : FaultInfo) : s.report = some (.fault f) ↔ s.fault = some f := by
  cases hf : s.fault <;> simp [State.report, hf]

theorem State.report_eq_halted_iff (s : State) : s.report = some .halted ↔ s.halted = true ∧ s.fault = none := by
  cases hf : s.fault <;> simp [State.report, hf]

theorem State.report_eq_none_iff (s : State) : s.report = none ↔ s.halted = false ∧ s.fault = none := by
  cases hf : s.fault <;> simp [State.report, hf]

/-- Phase Halted is the halted flag without a fault (R30). -/
theorem State.Inv.phase_eq_halted_iff {s : State} (hs : s.Inv) : s.phase = .halted ↔ s.halted = true ∧ s.fault = none := by
  constructor
  · intro hp
    obtain ⟨hh, hf, -⟩ := hs.of_phase_halted hp
    exact ⟨hh, hf⟩
  · rintro ⟨hh, hf⟩
    rcases hs.flags_cases with ⟨hh', -⟩ | ⟨-, -, hp⟩ | ⟨f, hh', -⟩
    · simp [hh] at hh'
    · exact hp
    · simp [hh] at hh'

/-- The phases before the end of a run are those in which no flag is set (R30). -/
theorem State.Inv.phase_unended_iff {s : State} (hs : s.Inv) :
    (s.phase = .reset ∨ s.phase = .loaded ∨ s.phase = .running) ↔ s.halted = false ∧ s.fault = none := by
  constructor
  · rintro (hp | hp)
    · exact flags_of_reset hs hp
    · exact hs.flags_of_phase hp
  · rintro ⟨hh, hf⟩
    rcases hs.flags_cases with ⟨-, -, hp⟩ | ⟨hh', -⟩ | ⟨f, -, hf', -⟩
    · exact hp
    · simp [hh] at hh'
    · simp [hf] at hf'

/-- Settles O41: the report is read off the two flags, and the invariant ties each of their values to its phases. -/
theorem reportIsTheHaltOrTheFault : Obligations.ReportIsTheHaltOrTheFault :=
  fun s hs =>
    ⟨s.report_eq_halted_iff.trans hs.phase_eq_halted_iff.symm, s.report_eq_fault_iff,
     s.report_eq_none_iff.trans hs.phase_unended_iff.symm⟩

/-! ### SegFault -/

theorem not_enabled_of_fault {s : State} {f : FaultInfo} (h : s.fault = some f) : s.enabled = false := by
  simp [State.enabled, h]

/-- Settles O22: the step is the entry of R126, which leaves a state with a fault, where no step is enabled. -/
theorem segFaultIsPreciseAndFinal : Obligations.SegFaultIsPreciseAndFinal := by
  intro s a b c hf hr
  have hfault := State.raise_fault s (.segFault s.pc (s.mem.read s.pc) a b)
  have hoff := not_enabled_of_fault hfault
  exact ⟨_, step_of_not_inRange hf hr, rfl, rfl, rfl, hf.halted, rfl, hfault, rfl, (State.report_eq_fault_iff _ _).2 hfault,
    step_of_not_enabled hoff, fun fuel => ⟨runFor_of_not_enabled fuel hoff, stepViews_of_not_enabled fuel hoff⟩⟩

/-! ### Configuration -/

section Configure

variable {delayValid : Rat → Bool} {selectorValid : List Int → Bool} {raw : RawConfig} {c : Config}

/-- An accepted configuration is the raw one, each of its values of its kind. -/
theorem raw_of_configure_ok (h : configure delayValid selectorValid raw = .ok c) :
    raw = { size := some (c.n : Int), delay := some c.delay, selector := some c.selector } ∧
      delayValid c.delay = true ∧ selectorValid c.selector = true := by
  obtain ⟨_ | size, _ | delay, _ | selector⟩ := raw
  case some.some.some =>
    simp only [configure] at h
    split_ifs at h with hv
    obtain rfl := Except.ok.inj h
    simp only [Bool.and_eq_true, decide_eq_true_eq] at hv
    obtain ⟨⟨hsize, -, hdelay⟩, hselector⟩ := hv
    exact ⟨by rw [Int.toNat_of_nonneg (by omega)], hdelay, hselector⟩
  all_goals cases h

theorem configure_of_valid (hn : 2 ≤ c.n) (hd : 0 ≤ c.delay) (hdelay : delayValid c.delay = true)
    (hselector : selectorValid c.selector = true) :
    configure delayValid selectorValid { size := some (c.n : Int), delay := some c.delay, selector := some c.selector } = .ok c := by
  have hn' : (2 : Int) ≤ c.n := by omega
  simp [configure, hn', hd, hdelay, hselector]

theorem configure_ok_iff :
    configure delayValid selectorValid raw = .ok c ↔
      raw = { size := some (c.n : Int), delay := some c.delay, selector := some c.selector } ∧
        2 ≤ c.n ∧ 0 ≤ c.delay ∧ delayValid c.delay = true ∧ selectorValid c.selector = true := by
  constructor
  · intro h
    obtain ⟨hraw, hdelay, hselector⟩ := raw_of_configure_ok h
    obtain ⟨hn, hd⟩ : 2 ≤ c.n ∧ 0 ≤ c.delay := by simpa [Config.valid] using configure_ok_valid h
    exact ⟨hraw, hn, hd, hdelay, hselector⟩
  · rintro ⟨rfl, hn, hd, hdelay, hselector⟩
    exact configure_of_valid hn hd hdelay hselector

theorem powerUp_of_configure_ok (h : configure delayValid selectorValid raw = .ok c) :
    powerUp delayValid selectorValid raw = .ok (State.resetWith c) := by
  rw [powerUp, h]
  rfl

theorem powerUp_of_configure_error {e : FaultKind} (h : configure delayValid selectorValid raw = .error e) :
    powerUp delayValid selectorValid raw = .error e := by
  rw [powerUp, h]
  rfl

end Configure

/-- Settles O42: acceptance is one check of the values, ConfigError is the only error, and power-up passes either answer on. -/
theorem configureAcceptsExactlyTheValid : Obligations.ConfigureAcceptsExactlyTheValid := by
  refine fun _ _ _ => ⟨fun _ => configure_ok_iff, fun e h => ?_, fun _ => powerUp_of_configure_ok⟩
  obtain rfl := configure_error h
  exact ⟨rfl, powerUp_of_configure_error h⟩

/-! ### Load -/

theorem textWords_eq_nil_iff (img : Image) : img.textWords = [] ↔ img.text = none ∨ img.text = some [] := by
  cases ht : img.text <;> simp [Image.textWords, ht]

theorem load_of_reset {img : Image} {s : State} (hp : s.phase = .reset) (hs : 0 ≤ img.stackWords) :
    load img s = .next (loadImage img s) := by
  rw [load, if_pos hp, if_neg (not_lt.2 hs)]

theorem loadImage_of_noText {img : Image} (s : State) (ht : img.textWords = []) :
    loadImage img s = s.raise (.formatError .noText) := if_pos ht

/-- Settles O45: an absent text counts as an empty one, and the check for it is the loader's first. -/
theorem loadWithoutTextIsAFormatError : Obligations.LoadWithoutTextIsAFormatError := by
  intro s img hp hs ht
  rw [load_of_reset hp hs, loadImage_of_noText s ((textWords_eq_nil_iff img).2 ht)]
  rfl

end Sys2Proof.Machine
end

section
/-!
PROOFS of the reset and load family: the state after reset (O43), where a load places text and data (O44), CapacityError (O46), and that the
stack reservation enters only the capacity check (O48).
-/

namespace Sys2Proof

/-! ### Images whose data is all byte sequences -/

theorem required_of_stackWords {img : Image} {stack : Nat} (hstack : img.stackWords = stack) :
    img.required = img.textWords.length + 1 + img.dataCount + stack := by
  rw [Image.required, RESERVED_CELLS, hstack, Int.toNat_natCast]

section Bytes

variable {img : Image} {bss : List (List (BitVec 8))}

/-- The data count of byte sequences is the length of their concatenation. -/
theorem dataCount_of_bytes (hd : img.elements = bss.map .bytes) : img.dataCount = bss.flatten.length := by
  have hcount : DataElement.count ∘ .bytes = (List.length : List (BitVec 8) → Nat) := rfl
  rw [Image.dataCount, hd, List.map_map, hcount, List.length_flatten]

/-- The data words of byte sequences are the bytes of their concatenation (R148). -/
theorem dataWords_of_bytes (hd : img.elements = bss.map .bytes) : img.dataWords = bss.flatten.map zext8 := by
  have hcontent : DataElement.content ∘ .bytes = (id : List (BitVec 8) → List (BitVec 8)) := rfl
  rw [Image.dataWords, hd, List.flatMap_def, List.map_map, hcontent, List.map_id]

theorem dataWords_getD_of_bytes (hd : img.elements = bss.map .bytes) (k : Nat) :
    img.dataWords.getD k 0 = zext8 (bss.flatten.getD k 0) := by
  have hzero : zext8 0 = 0 := rfl
  rw [dataWords_of_bytes hd, ← hzero, List.getD_map]

theorem required_of_bytes {stack : Nat} (hd : img.elements = bss.map .bytes) (hstack : img.stackWords = stack) :
    img.required = img.textWords.length + 1 + bss.flatten.length + stack := by
  rw [required_of_stackWords hstack, dataCount_of_bytes hd]

end Bytes

end Sys2Proof

namespace Sys2Proof.Machine

/-! ### Reset -/

/-- Settles O43: the reset memory lists no cell, and an unlisted cell reads as 0. -/
theorem resetState : Obligations.ResetState :=
  fun _ => ⟨fun _ => rfl, rfl, rfl, rfl, rfl, rfl, rfl⟩

/-! ### The regions of a placed image: text from 0 up, data flush below the output register, nothing written elsewhere -/

section Placed

variable {n : Nat} {img : Image} {m : Memory}

/-- Every read of a placed image: the data was written last, the text before it. -/
theorem read_placeImage (hm : m.wf = true) (i : Nat) :
    (placeImage n img m).read i =
      if dataBase n img ≤ i ∧ i < dataBase n img + img.dataWords.length then img.dataWords.getD (i - dataBase n img) 0
      else if i < img.textWords.length then img.textWords.getD i 0
      else m.read i := by
  rw [placeImage, Memory.read_writeFrom _ _ (Memory.writeFrom_wf _ _ hm), Memory.read_writeFrom _ _ hm]
  simp only [Nat.zero_le, true_and, Nat.zero_add, Nat.sub_zero]

/-- Inside the capacity the text ends at or below the data, and the data ends below the output register. -/
theorem regions_of_required_le (hfit : img.required ≤ n) :
    img.textWords.length ≤ dataBase n img ∧ dataBase n img + img.dataWords.length ≤ n - 1 := by
  have hlen := dataWords_length_le img
  unfold Image.required RESERVED_CELLS at hfit
  unfold dataBase RESERVED_CELLS
  omega

theorem read_placeImage_text (hm : m.wf = true) (hfit : img.required ≤ n) {i : Nat} (hi : i < img.textWords.length) :
    (placeImage n img m).read i = img.textWords.getD i 0 := by
  obtain ⟨htext, -⟩ := regions_of_required_le hfit
  rw [read_placeImage hm, if_neg (by omega), if_pos hi]

theorem read_placeImage_data (hm : m.wf = true) {k : Nat} (hk : k < img.dataWords.length) :
    (placeImage n img m).read (dataBase n img + k) = img.dataWords.getD k 0 := by
  rw [read_placeImage hm, if_pos (by omega), Nat.add_sub_cancel_left]

/-- Between text and data, and from the output register up, nothing is written. -/
theorem read_placeImage_frame (hm : m.wf = true) (hfit : img.required ≤ n) {i : Nat} (hi : img.textWords.length ≤ i)
    (hout : i < dataBase n img ∨ n - 1 ≤ i) : (placeImage n img m).read i = m.read i := by
  obtain ⟨-, hdata⟩ := regions_of_required_le hfit
  rw [read_placeImage hm, if_neg (by omega), if_neg (by omega)]

end Placed

/-! ### The answers of the loader, each under its own checks -/

theorem loadImage_of_overCapacity {img : Image} {s : State} (ht : img.textWords ≠ []) (hover : s.n < img.required) :
    loadImage img s = s.raise (.capacityError img.required) := by
  rw [loadImage, if_neg ht, if_pos hover]

theorem loadImage_of_bytes {img : Image} {s : State} {bss : List (List (BitVec 8))} (ht : img.textWords ≠ [])
    (hfit : img.required ≤ s.n) (hd : img.elements = bss.map .bytes) :
    loadImage img s = (s.setMem (placeImage s.n img s.mem)).setPhase .loaded := by
  rw [loadImage, if_neg ht, if_neg (not_lt.2 hfit), hd, firstBad_map_bytes]

/-- Inside the capacity the only fault a load can record is that of the data-element check. -/
theorem loadImage_fault_of_fits {img : Image} {s : State} (hfit : img.required ≤ s.n) (hf : s.fault = none) (k : Nat) :
    (loadImage img s).fault ≠ some (.capacityError k) := by
  rcases loadImage_cases img s with ⟨-, hx⟩ | ⟨-, hover, -⟩ | ⟨-, -, j, -, hx⟩ | ⟨-, -, -, hx⟩
  · simp [hx]
  · exact absurd hover (not_lt.2 hfit)
  · simp [hx]
  · simp [hx, hf]

/-- Settles O46: past the check for text, the loader's next check compares `required` with `N`, and no later one raises CapacityError. -/
theorem loadOverCapacityIsACapacityError : Obligations.LoadOverCapacityIsACapacityError := by
  intro s img text stack required hp htext hne hstack hreq
  have htw : img.textWords = text := by rw [Image.textWords, htext, Option.getD_some]
  have hload : load img s = .next (loadImage img s) := load_of_reset hp ((Int.natCast_nonneg stack).trans_eq hstack.symm)
  have hrequired : img.required = required := by rw [required_of_stackWords hstack, htw, hreq]; rfl
  subst hrequired
  refine ⟨fun hover => ?_, fun hfit hf => ⟨_, hload, loadImage_fault_of_fits hfit hf⟩⟩
  rw [hload, loadImage_of_overCapacity (htw ▸ hne) hover]
  rfl

/-- A load of text and byte sequences inside the capacity places the image and moves to phase Loaded. -/
theorem load_of_bytes {s : State} {img : Image} {bss : List (List (BitVec 8))} {stack : Nat} (hp : s.phase = .reset)
    (ht : img.textWords ≠ []) (hd : img.elements = bss.map .bytes) (hstack : img.stackWords = stack)
    (hfit : img.required ≤ s.n) :
    load img s = .next ((s.setMem (placeImage s.n img s.mem)).setPhase .loaded) := by
  rw [load_of_reset hp ((Int.natCast_nonneg stack).trans_eq hstack.symm), loadImage_of_bytes ht hfit hd]

/-- Settles O44: the load places the image in a memory of zeros, and each region of it reads as what was placed there. -/
theorem loadPlacesTextAndData : Obligations.LoadPlacesTextAndData := by
  intro s img text bss stack hs hp htext hd hstack hne hsize
  obtain ⟨hhalted, hfault⟩ := flags_of_reset hs hp
  obtain ⟨hpc, hout⟩ := hs.unstarted (.inl hp)
  have hzero (i : Nat) : s.mem.read i = 0 := by rw [hs.reset hp]; rfl
  have htw : img.textWords = text := by rw [Image.textWords, htext, Option.getD_some]
  have hfit : img.required ≤ s.n := by rwa [required_of_bytes hd hstack, htw]
  have hbase : s.n - bss.flatten.length - 1 = dataBase s.n img := by rw [dataBase, dataCount_of_bytes hd]; rfl
  have hlen : img.dataWords.length = bss.flatten.length := by rw [dataWords_of_bytes hd, List.length_map]
  subst htw
  rw [hbase]
  refine ⟨_, load_of_bytes hp hne hd hstack hfit, fun i hi => read_placeImage_text hs.mem.1 hfit hi, fun k hk => ?_,
    fun i hi hgap => (read_placeImage_frame hs.mem.1 hfit hi (.inl hgap)).trans (hzero i),
    (read_placeImage_frame hs.mem.1 hfit (by omega) (.inr le_rfl)).trans (hzero _),
    hpc, hhalted, hfault, hout, rfl, rfl⟩
  exact (read_placeImage_data hs.mem.1 (hlen ▸ hk)).trans (dataWords_getD_of_bytes hd k)

/-- Settles O48: both loads place the image, and placing does not read the reservation. -/
theorem stackReservationOnlyEntersTheCapacityCheck : Obligations.StackReservationOnlyEntersTheCapacityCheck := by
  intro s img bss p q hp ht hd hfitp hfitq
  have hload (stack : Nat) (hfit : img.textWords.length + 1 + bss.flatten.length + stack ≤ s.n) :
      load { img with stack := some (stack : Int) } s = .next ((s.setMem (placeImage s.n img s.mem)).setPhase .loaded) := by
    have hreq := required_of_bytes (img := { img with stack := some (stack : Int) }) hd rfl
    exact load_of_bytes hp ht hd rfl (hreq.trans_le hfit)
  exact ⟨(hload p hfitp).trans (hload q hfitq).symm, by omega⟩

end Sys2Proof.Machine
end

section
/-!
PROOFS of the other family: where a step is enabled, the phase it leaves and what a halted block does (O24, O26, O35), the failed load and the
refused one (O47, O51), fill (O49, O50), and the word placed for the next fetch (O53).
-/

namespace Sys2Proof.Machine

/-! ### Where a step is enabled -/

/-- Where a step is enabled it completes, takes SegFault or stops by name, but is never refused. -/
theorem not_enabled_of_step_refused {s : State} {r : Refusal} (h : step s = .refused r) : s.enabled = false := by
  rcases step_cases s with ⟨hoff, -⟩ | ⟨-, -, hx⟩ | ⟨a, b, c, -, ⟨-, hx⟩ | ⟨-, hx⟩⟩
  · exact hoff
  all_goals
    rw [hx] at h
    cases h

/-- Settles O24: the refusal is the answer where no step is enabled, and there only. -/
theorem noStepWhereNoneIsEnabled : Obligations.NoStepWhereNoneIsEnabled :=
  fun s => ⟨s.enabled_iff, not_enabled_of_step_refused, step_of_not_enabled⟩

theorem not_enabled_of_halted {s : State} (h : s.halted = true) : s.enabled = false := by
  simp [State.enabled, h]

/-- Settles O35: the halted flag disables the step, so the run loop and the observer stop where they are. -/
theorem haltedBlockIsFinal : Obligations.HaltedBlockIsFinal := by
  intro s h
  have hoff := not_enabled_of_halted h
  exact ⟨step_of_not_enabled hoff, fun fuel => ⟨runFor_of_not_enabled fuel hoff, stepViews_of_not_enabled fuel hoff⟩⟩

/-! ### The phase after a step -/

/-- The end of a completed step leaves the block running, or halted with its flag (R30, R107). -/
theorem endStep_phase_flags {s : State} (hr : s.phase = .running) (hh : s.halted = false) (hf : s.fault = none) :
    s.endStep.phase = .running ∧ s.endStep.halted = false ∧ s.endStep.fault = none ∨
    s.endStep.phase = .halted ∧ s.endStep.halted = true ∧ s.endStep.fault = none := by
  rcases endStep_cases hf with ⟨-, heq⟩ | ⟨-, heq⟩ <;> rw [heq]
  · exact .inr ⟨rfl, rfl, hf⟩
  · exact .inl ⟨hr, hh, hf⟩

/-- Settles O26: SegFault leads to Faulted, and a completed step runs on or halts. -/
theorem phaseAfterAStep : Obligations.PhaseAfterAStep := by
  intro s t h
  obtain ⟨hphase, -⟩ := s.enabled_iff.1 (enabled_of_step h)
  refine ⟨hphase, ?_⟩
  obtain ⟨a, b, c, hf, ⟨-, rfl⟩ | ⟨-, rfl⟩⟩ := step_next_cases h
  · exact .inr (.inr ⟨rfl, hf.halted, _, a, b, rfl⟩)
  · exact (endStep_phase_flags (s := afterSubleq s.beginStep a b c) rfl hf.halted hf.fault).imp_right .inl

/-! ### The load that fails its data-element check, and the refused host actions -/

theorem loadImage_of_badData {img : Image} {s : State} {j : Nat} (ht : img.textWords ≠ []) (hfit : img.required ≤ s.n)
    (hb : firstBad img.elements 0 = some j) :
    loadImage img s = (s.setMem (memoryAfterBadData s.n img j)).raise (.formatError (.badData j)) := by
  rw [loadImage, if_neg ht, if_neg (not_lt.2 hfit), hb]

/-- Settles O47: the check stops at the first element that is no byte sequence, whose index is the number of byte sequences before it. -/
theorem loadOfBadDataIsAFormatError : Obligations.LoadOfBadDataIsAFormatError := by
  intro s img bss count rest hp hs ht hdata hfit
  have hb : firstBad img.elements 0 = some bss.length := by
    rw [Image.elements, hdata, Option.getD_some, firstBad_append_other, Nat.zero_add]
  rw [load_of_reset hp hs, loadImage_of_badData ht hfit hb]
  exact ⟨_, rfl, rfl, rfl, rfl, rfl, rfl, rfl⟩

theorem load_of_not_reset (img : Image) {s : State} (hp : s.phase ≠ .reset) : load img s = .refused (.loadNotEnabled s.phase) :=
  if_neg hp

theorem load_of_negativeStack {img : Image} {s : State} (hp : s.phase = .reset) (hs : img.stackWords < 0) :
    load img s = .refused (.negativeStack img.stackWords) := by
  rw [load, if_pos hp, if_pos hs]

theorem fill_of_not_reset (values : List Int) {s : State} (hp : s.phase ≠ .reset) :
    fill values s = .refused (.loadNotEnabled s.phase) := if_neg hp

/-- Settles O51: the phase is checked first, then the sign of the stack. -/
theorem hostActionsRefusedWhereTheyHaveNoMove : Obligations.HostActionsRefusedWhereTheyHaveNoMove :=
  fun _ img values => ⟨fun hp => ⟨load_of_not_reset img hp, fill_of_not_reset values hp⟩, load_of_negativeStack⟩

/-! ### Fill -/

theorem fill_of_length_eq {values : List Int} {s : State} (hp : s.phase = .reset) (hl : values.length = s.n) :
    fill values s = .next ((s.setMem (s.mem.writeFrom 0 values)).setPhase .loaded) := by
  rw [fill, if_pos hp, if_pos hl]

theorem fill_of_length_ne {values : List Int} {s : State} (hp : s.phase = .reset) (hl : values.length ≠ s.n) :
    fill values s = .refused (.fillLength values.length) := by
  rw [fill, if_pos hp, if_neg hl]

/-- Settles O49: the values are written to the cells from 0 up, and there are as many of them as cells. -/
theorem fillWritesEveryCell : Obligations.FillWritesEveryCell := by
  refine fun s values hm hp => ⟨fun hl => ⟨_, fill_of_length_eq hp hl, fun i hi => ?_, rfl⟩, fill_of_length_ne hp⟩
  rw [State.setPhase_mem, State.setMem_mem, Memory.read_writeFrom 0 values hm, if_pos (by omega), Nat.sub_zero]

/-- Zeros written to a memory that lists no cell list none. -/
theorem Memory.writeFrom_nil_replicate_zero (base n : Nat) : Memory.writeFrom [] base (List.replicate n 0) = [] := by
  induction n generalizing base with
  | zero => rfl
  | succ n ih => exact ih (base + 1)

/-- Settles O50: the zeros leave the reset memory as it is. -/
theorem fillOfZerosIsTheResetState : Obligations.FillOfZerosIsTheResetState := by
  intro c
  have hmem : (State.resetWith c).mem.writeFrom 0 (List.replicate c.n 0) = [] := Memory.writeFrom_nil_replicate_zero 0 c.n
  have hfill := fill_of_length_eq (s := State.resetWith c) rfl (List.length_replicate (n := c.n) (a := 0))
  rwa [hmem] at hfill

/-! ### The word placed for the next fetch -/

section Launch

variable (s : State) (w : Int)

/-- Placing a word writes memory at `pc`, and else at most the phase and the two flags. -/
theorem launchWith_frame :
    (s.launchWith w).mem = s.mem.write s.pc w ∧ (s.launchWith w).pc = s.pc ∧ (s.launchWith w).out = s.out ∧
      (s.launchWith w).config = s.config := by
  unfold State.launchWith
  split <;> exact ⟨rfl, rfl, rfl, rfl⟩

theorem launchWith_enabled : (s.launchWith w).enabled = true := by
  unfold State.launchWith
  split
  case isTrue he => exact he
  case isFalse => rfl

/-- The placed word is the one the next fetch answers (R45). -/
theorem fetch_launchWith (hm : s.mem.wf = true) (hpc : s.pc < s.n) : fetch (s.launchWith w) = .ok w := by
  obtain ⟨hmem, hpc', -, hconfig⟩ := launchWith_frame s w
  rw [fetch_of_lt (by rwa [State.n, hpc', hconfig]), hmem, hpc', Memory.read_write hm, if_pos rfl]

end Launch

/-- Settles O53: the write at `pc` is what fetch reads, and the only change of memory. -/
theorem withFetchWordIsFetchedNext : Obligations.WithFetchWordIsFetchedNext := by
  intro s nbits w hm hpc
  obtain ⟨hmem, hframe⟩ := launchWith_frame s (tableWord nbits w)
  refine ⟨launchWith_enabled s _, fetch_launchWith s _ hm hpc, fun i hi => ?_, hframe⟩
  rw [State.withFetchWord, hmem, Memory.read_write hm, if_neg hi]

end Sys2Proof.Machine
end
